-- ==== Sys2Proof/Word.lean ====
section
/-! DEFINITION. The words of the block: command word, payload byte, operand field, bit sequence (spec 00 R8 to R10). -/

namespace Sys2Proof

/-- A command word, and the `RES` field of a response: 32 bits (00 R8). -/
abbrev Word := BitVec 32

/-- A payload element: 8 bits (00 R8). -/
abbrev Byte := BitVec 8

/-- The operand field `ARG = cmd[23:0]`, and every length and index: 24 bits (00 R8, 30 R60). -/
abbrev Arg := BitVec 24

/-- A bit sequence, bit 0 first: bit 0 is the first bit a decoder consumes (00 R10). -/
abbrev Bits := List Bool

end Sys2Proof
end

