-- ==== Sys2Proof/Syntax.lean ====
section
/-! DEFINITION. The 17 commands of spec 30 R69 as syntax, their mnemonics and formats, a command as the
host issues it, and the host's moves. -/

namespace Sys2Proof

/-- The commands ("instructions", 00 R1), one constructor per row of the opcode table (30 R69). -/
inductive Instr where
  /-- Make the sequence empty (40 R90). -/
  | clr
  /-- Construct the sequence from the `n` payload bytes `din` (40 R91). -/
  | ldb (n : Arg) (din : List Byte)
  /-- Read bit `i` (40 R92). -/
  | get (i : Arg)
  /-- Write bit `i` (40 R93). -/
  | set (i : Arg) (v : Bool)
  /-- Set the length (40 R94). -/
  | slen (n : Arg)
  /-- Shift toward index 0 (40 R95). -/
  | shl (n : Arg)
  /-- Export to bytes (40 R96). -/
  | exp
  /-- Length of the window code at the start of byte `b` (41 R110). -/
  | whlen (b : Byte)
  /-- Window size of the code at the start of byte `b` (41 R112). -/
  | wval (b : Byte)
  /-- The canonical window code (41 R114). -/
  | wcanon
  /-- Pad to a byte boundary with an empty meta-block (42 R120). -/
  | pad
  /-- Header check (43 R126). -/
  | hchk
  /-- Terminator detector (43 R127). -/
  | tfind
  /-- Terminator stripper (43 R128). -/
  | tstrip
  /-- Extract the bare block of the `n` payload bytes `din` (43 R131). -/
  | xtr (n : Arg) (din : List Byte)
  /-- Read control register `k` (44 R140). -/
  | rdc (k : BitVec 4)
  /-- Soft reset (44 R141). -/
  | rst
deriving DecidableEq, Repr

/-- The mnemonics of the opcode table (30 R69). -/
inductive Mnemonic where
  | clr | ldb | get | set | slen | shl | exp | whlen | wval | wcanon | pad | hchk | tfind | tstrip | xtr | rdc | rst
deriving DecidableEq, Repr

/-- The mnemonic of a command. -/
def Instr.mnemonic : Instr → Mnemonic
  | .clr => .clr
  | .ldb _ _ => .ldb
  | .get _ => .get
  | .set _ _ => .set
  | .slen _ => .slen
  | .shl _ => .shl
  | .exp => .exp
  | .whlen _ => .whlen
  | .wval _ => .wval
  | .wcanon => .wcanon
  | .pad => .pad
  | .hchk => .hchk
  | .tfind => .tfind
  | .tstrip => .tstrip
  | .xtr _ _ => .xtr
  | .rdc _ => .rdc
  | .rst => .rst

/-- The six formats (30 R61). -/
inductive Format where
  /-- No operand: `cmd[23:0]` must be zero. -/
  | n
  /-- `cmd[23:0]` is an unsigned operand. -/
  | a
  /-- `cmd[31:25]` is the opcode, `cmd[24]` a bit, `cmd[23:0]` an index. -/
  | s
  /-- `cmd[7:0]` is a byte, `cmd[23:8]` must be zero. -/
  | b
  /-- `cmd[3:0]` is a register number, `cmd[23:4]` must be zero. -/
  | r
  /-- `cmd[23:0]` is a payload byte count, and so many bytes follow. -/
  | p
deriving DecidableEq, Repr

/-- A command as the host issues it: the word and its input payload `DIN`, byte 0 first (30 R60, R72, 20 R41). -/
structure Command where
  word : Word
  payload : List Byte
deriving DecidableEq, Repr

/-- What the host can do to the block between two commands: issue the next command with its whole payload
(20 R50), or assert hardware reset (70 R180). -/
inductive HostInput where
  | command (c : Command)
  | reset
deriving DecidableEq, Repr

end Sys2Proof
end

