-- ==== Sys2Proof/WellFormed.lean ====
section
/-! DEFINITION. Which terms of `Instr` are commands of the interface (spec 30 R72). -/

namespace Sys2Proof

/-- A format P command is the pair (word, list of bytes) with the list's length equal to `ARG`; a pair
whose list length differs is not a command of this interface (30 R72). Every other term is well formed:
the widths of its operands are those of its fields. `RDC k` with `k >= 9` matches its row and is well
formed as syntax; it raises IllegalCommand when executed (30 R70). -/
def Instr.wf : Instr → Bool
  | .ldb n din => din.length == n.toNat
  | .xtr n din => din.length == n.toNat
  | .clr => true
  | .get _ => true
  | .set _ _ => true
  | .slen _ => true
  | .shl _ => true
  | .exp => true
  | .whlen _ => true
  | .wval _ => true
  | .wcanon => true
  | .pad => true
  | .hchk => true
  | .tfind => true
  | .tstrip => true
  | .rdc _ => true
  | .rst => true

end Sys2Proof
end

