-- ==== Sys2Proof/Decode.lean ====
section
/-! DEFINITION. From a command word and its payload to a command and back: the opcode table with its match
and mask words, the decoder, the encoder (spec 30 R60 to R72). -/

namespace Sys2Proof

/-! ### Fields of the command word (30 R60) -/

/-- `OPC = cmd[31:24]`. -/
def opcOf (w : Word) : BitVec 8 := w.extractLsb' 24 8

/-- `ARG = cmd[23:0]`. -/
def argOf (w : Word) : Arg := w.extractLsb' 0 24

/-! ### The opcode table (30 R69) -/

/-- A row of the opcode table: a word `w` selects the row with `w & mask = match`. -/
structure OpcodeRow where
  mnemonic : Mnemonic
  format : Format
  matchWord : Word
  mask : Word
deriving DecidableEq, Repr

/-- The word selects the row (30 R69). -/
def OpcodeRow.selects (r : OpcodeRow) (w : Word) : Bool := w &&& r.mask == r.matchWord

/-- The complete opcode map, row by row as 30 R69 prints it. -/
def opcodeTable : List OpcodeRow :=
  [ ⟨.clr,    .n, 0x01000000#32, 0xFFFFFFFF#32⟩,
    ⟨.ldb,    .p, 0x02000000#32, 0xFF000000#32⟩,
    ⟨.get,    .a, 0x03000000#32, 0xFF000000#32⟩,
    ⟨.set,    .s, 0x04000000#32, 0xFE000000#32⟩,
    ⟨.slen,   .a, 0x06000000#32, 0xFF000000#32⟩,
    ⟨.shl,    .a, 0x07000000#32, 0xFF000000#32⟩,
    ⟨.exp,    .n, 0x08000000#32, 0xFFFFFFFF#32⟩,
    ⟨.whlen,  .b, 0x10000000#32, 0xFFFFFF00#32⟩,
    ⟨.wval,   .b, 0x11000000#32, 0xFFFFFF00#32⟩,
    ⟨.wcanon, .n, 0x12000000#32, 0xFFFFFFFF#32⟩,
    ⟨.pad,    .n, 0x20000000#32, 0xFFFFFFFF#32⟩,
    ⟨.hchk,   .n, 0x30000000#32, 0xFFFFFFFF#32⟩,
    ⟨.tfind,  .n, 0x31000000#32, 0xFFFFFFFF#32⟩,
    ⟨.tstrip, .n, 0x32000000#32, 0xFFFFFFFF#32⟩,
    ⟨.xtr,    .p, 0x33000000#32, 0xFF000000#32⟩,
    ⟨.rdc,    .r, 0x40000000#32, 0xFFFFFFF0#32⟩,
    ⟨.rst,    .n, 0x7F000000#32, 0xFFFFFFFF#32⟩ ]

/-! ### Decoding -/

/-- Why a pair (word, payload) decodes to no command. -/
inductive DecodeError where
  /-- The word matches no row of the opcode table: it raises IllegalCommand (30 R70, 60 R155). -/
  | illegalCommand
  /-- The payload's length is not the one the word asks for: not a command of the interface (30 R72). -/
  | payloadMismatch
deriving DecidableEq, Repr

/-- The payload length, from the word alone: `ARG` for the opcode bytes `0x02` and `0x33`, otherwise 0 (30 R72). -/
def payloadLength (w : Word) : Nat :=
  if opcOf w = 0x02#8 ∨ opcOf w = 0x33#8 then (argOf w).toNat else 0

/-- A format N word: the operand field must be zero (30 R61, R62). -/
def decodeN (w : Word) (i : Instr) : Option Instr :=
  if argOf w = 0#24 then some i else none

/-- A format B word: `ARG[23:8]` must be zero, `ARG[7:0]` is the byte (30 R61, R62). -/
def decodeB (w : Word) (f : Byte → Instr) : Option Instr :=
  if (argOf w).extractLsb' 8 16 = 0#16 then some (f ((argOf w).extractLsb' 0 8)) else none

/-- A format R word: `ARG[23:4]` must be zero, `ARG[3:0]` is the register number (30 R61, R62). -/
def decodeR (w : Word) (f : BitVec 4 → Instr) : Option Instr :=
  if (argOf w).extractLsb' 4 20 = 0#20 then some (f ((argOf w).extractLsb' 0 4)) else none

/-- The command of a word, `din` being its payload: by the opcode byte, then by the format's operand field
(30 R61, R68, R69). Every other word is illegal (30 R70). -/
def decodeWord (w : Word) (din : List Byte) : Option Instr :=
  if opcOf w = 0x01#8 then decodeN w .clr
  else if opcOf w = 0x02#8 then some (.ldb (argOf w) din)
  else if opcOf w = 0x03#8 then some (.get (argOf w))
  else if opcOf w = 0x04#8 then some (.set (argOf w) false)
  else if opcOf w = 0x05#8 then some (.set (argOf w) true)
  else if opcOf w = 0x06#8 then some (.slen (argOf w))
  else if opcOf w = 0x07#8 then some (.shl (argOf w))
  else if opcOf w = 0x08#8 then decodeN w .exp
  else if opcOf w = 0x10#8 then decodeB w .whlen
  else if opcOf w = 0x11#8 then decodeB w .wval
  else if opcOf w = 0x12#8 then decodeN w .wcanon
  else if opcOf w = 0x20#8 then decodeN w .pad
  else if opcOf w = 0x30#8 then decodeN w .hchk
  else if opcOf w = 0x31#8 then decodeN w .tfind
  else if opcOf w = 0x32#8 then decodeN w .tstrip
  else if opcOf w = 0x33#8 then some (.xtr (argOf w) din)
  else if opcOf w = 0x40#8 then decodeR w .rdc
  else if opcOf w = 0x7F#8 then decodeN w .rst
  else none

/-- The decoder, total on every pair (word, payload). -/
def decode (c : Command) : Except DecodeError Instr :=
  if c.payload.length = payloadLength c.word then
    match decodeWord c.word c.payload with
    | some i => .ok i
    | none => .error .illegalCommand
  else .error .payloadMismatch

/-! ### Encoding -/

/-- The command word of a command: opcode byte, then the operand field (30 R61, R68, R69). -/
def encodeWord : Instr → Word
  | .clr => 0x01#8 ++ 0#24
  | .ldb n _ => 0x02#8 ++ n
  | .get i => 0x03#8 ++ i
  | .set i v => (0b0000010#7 ++ BitVec.ofBool v) ++ i
  | .slen n => 0x06#8 ++ n
  | .shl n => 0x07#8 ++ n
  | .exp => 0x08#8 ++ 0#24
  | .whlen b => 0x10#8 ++ (0#16 ++ b)
  | .wval b => 0x11#8 ++ (0#16 ++ b)
  | .wcanon => 0x12#8 ++ 0#24
  | .pad => 0x20#8 ++ 0#24
  | .hchk => 0x30#8 ++ 0#24
  | .tfind => 0x31#8 ++ 0#24
  | .tstrip => 0x32#8 ++ 0#24
  | .xtr n _ => 0x33#8 ++ n
  | .rdc k => 0x40#8 ++ (0#20 ++ k)
  | .rst => 0x7F#8 ++ 0#24

/-- The input payload of a command: format P only (30 R72). -/
def payloadOf : Instr → List Byte
  | .ldb _ din => din
  | .xtr _ din => din
  | .clr => []
  | .get _ => []
  | .set _ _ => []
  | .slen _ => []
  | .shl _ => []
  | .exp => []
  | .whlen _ => []
  | .wval _ => []
  | .wcanon => []
  | .pad => []
  | .hchk => []
  | .tfind => []
  | .tstrip => []
  | .rdc _ => []
  | .rst => []

/-- The command as the host issues it. -/
def encode (i : Instr) : Command := ⟨encodeWord i, payloadOf i⟩

/-! ### The opcode table's numbering of a command's bits -/

/-- `n` payload bytes out of a number: byte 0 is the low byte. -/
def payloadOfBits : Nat → Nat → List Byte
  | 0, _ => []
  | n + 1, v => BitVec.ofNat 8 v :: payloadOfBits n (v / 256)

/-- The command whose low `nbits` bits are those of `w` and whose other bits are 0: bits 31..0 are the
command word, bits 32 + 8k + 7 .. 32 + 8k are payload byte `k`. The word is an abstract number and has no
byte order (20 R45); where the payload's bits stand in this numbering is a DESIGN CHOICE (log entry 9). -/
def commandOfBits (nbits w : Nat) : Command :=
  ⟨BitVec.ofNat 32 (w % 2 ^ nbits),
    payloadOfBits (payloadLength (BitVec.ofNat 32 (w % 2 ^ nbits))) (w % 2 ^ nbits / 2 ^ 32)⟩

/-- What the decoder reads from a command whose bits are `w`. -/
def decodeTableWord (nbits w : Nat) : Option Instr :=
  match decode (commandOfBits nbits w) with
  | .ok i => some i
  | .error _ => none

end Sys2Proof
end

