-- ==== Sys2Proof/Machine/Constants.lean ====
section
/-! DEFINITION. The wired constants of the block (spec 00 R7, 10 R31 to R33; 70 R181: definitions and not state). -/

namespace Sys2Proof.Machine

/-- `CHDR`: the canonical stream header as a number, header bit `i` at bit `i` (10 R31). -/
def chdr : BitVec 16 := 0x006B#16

/-- `CHDRLEN`: its length in bits (10 R31). -/
def chdrLen : BitVec 5 := 16#5

/-- The 16 bits of the canonical header, bit 0 first, as 00 R7 and 43 R126 print them. -/
def chdrBits : Bits :=
  [true, true, false, true, false, true, true, false, false, false, false, false, false, false, false, false]

/-- `TERM`: the stream terminator in isolation (10 R32). -/
def term : BitVec 8 := 0x03#8

/-- `PADCTL`: the six padding control bits as a number, the `i`-th bit appended at bit `i` (10 R33). -/
def padctl : BitVec 6 := 0b000110#6

/-- The six padding control bits in the order appended: ISLAST, MNIBBLES bit 0, MNIBBLES bit 1, reserved,
MSKIPBYTES bit 0, MSKIPBYTES bit 1 (10 R33, 42 R120). -/
def padctlBits : Bits := [false, true, true, false, false, false]

/-- The result of `WCANON`: the code length 4 in bits 11:8, the code bits `0xB` in bits 3:0 (41 R114). -/
def wcanonResult : Word := 0x0000040B#32

/-- `WBITS_RESERVED7`: the one reserved 7-bit pattern (00 R7; supplied by the spec from general knowledge,
93 G2). -/
def wbitsReserved7 : BitVec 7 := 0b0010001#7

end Sys2Proof.Machine
end

