-- ==== Sys2Proof/Config.lean ====
section
/-! DEFINITION. What is fixed when the block is built: the two parameters of the spec (00 R5, R6; 10 R36). -/

namespace Sys2Proof

/-- `P_WBITS4_RULE`: which first bytes the header-length decoder classes as a 4-bit code (00 R6). -/
inductive Wbits4Rule where
  /-- The default, the source's words: the low two bits are `11`. -/
  | doc
  /-- The public format: bit 0 is 1 and bits 3 to 1 are not `000`. -/
  | rfc
deriving DecidableEq, Repr

/-- The parameters of one block. No command changes them (log entries 1 and 2). -/
structure Config where
  /-- `CAP_BITS`, the capacity of the bit register in bits; control register 4, 24 bits (00 R5, 10 R26). -/
  capBits : BitVec 24
  /-- `P_WBITS4_RULE` (00 R6); not readable (70 R183). -/
  wbits4 : Wbits4Rule
deriving DecidableEq, Repr

/-- The constraints of 00 R5: a multiple of 8, at least 16. The upper bound `2^24 - 8` follows from the
width (`Config.legal_le`, Laws/State.lean). -/
abbrev Config.legal (c : Config) : Prop :=
  c.capBits.toNat % 8 = 0 ∧ 16 ≤ c.capBits.toNat

/-- The capacity the test vectors of spec 95 assume, and the default rule `DOC` (00 R5, R6).
DESIGN CHOICE (log entry 1), unsafe for a claim that names this capacity: the spec leaves `CAP_BITS` open. -/
def Config.default : Config := { capBits := 65536#24, wbits4 := .doc }

end Sys2Proof
end

