-- ==== Sys2Proof/Machine/State.lean ====
section
/-! DEFINITION. The state of the block as plain data, its value after reset, the response record, and the
reasons a step can stop (spec 10, 30 R63 to R66, 60 R150). -/

namespace Sys2Proof.Machine

/-- `MODE` (10 R28, 60 R164). -/
inductive Mode where
  /-- `RUN` (0): every command is accepted. -/
  | run
  /-- `FAULTED` (1): a fault has been recorded, and only a legal `RDC` and a legal `RST` are accepted. -/
  | faulted
deriving DecidableEq, Repr

/-- The five fault causes (60 R150). Each is taken as a next state by `State.raise`. -/
inductive Cause where
  | formatError
  | invalidState
  | indexError
  | capacityError
  | illegalCommand
deriving DecidableEq, Repr

/-- `ST`, the status of a response (30 R64). Codes 7 to 15 are never produced. -/
inductive Status where
  | ok
  | fault (c : Cause)
  | halted
deriving DecidableEq, Repr

/-- `NX`, why a result is negative (30 R65). Values 5 to 7 are never produced. -/
inductive NotFound where
  /-- Fewer than 16 bits at the header check. -/
  | tooShort
  /-- The first 16 bits are not the canonical header. -/
  | headerMismatch
  /-- No 1 bit in the sequence at the terminator scan. -/
  | noOneBit
  /-- The last 1 bit is at index 0, or the bit before it is 0. -/
  | badTerminator
deriving DecidableEq, Repr

/-- A response: the record of 30 R63 and the output payload `DOUT`. `nx = none` is the reason code 0. -/
structure Response where
  st : Status
  f : Bool
  nx : Option NotFound
  res : Word
  dout : List Byte
deriving DecidableEq, Repr

/-- The state of one block. -/
structure State where
  /-- The bit sequence: the pair (`LEN`, `BR[0..LEN-1]`), as a list of exactly `LEN` bits (10 R20, R22;
  log entry 3). -/
  br : Bits
  /-- `MODE` (10 R28). -/
  mode : Mode
  /-- `FCAUSE`, 4 bits (10 R29). -/
  fcause : BitVec 4
  /-- `FCMD`, 32 bits (10 R30). -/
  fcmd : Word
  /-- The wired parameters `CAP_BITS` and `P_WBITS4_RULE` (00 R5, R6; log entries 1 and 2). -/
  cfg : Config
  /-- The response of the last completed command; `none`: no response pending (10 R35, log entry 4). -/
  rsp : Option Response
  /-- What the host has still to do, in order (10 R36, 70 R196, log entry 5). -/
  inputs : List HostInput
deriving DecidableEq, Repr

/-- `LEN`, the bit length (10 R22). -/
def State.len (s : State) : Nat := s.br.length

/-- `fault_o`, a level output equal to `MODE` (60 R165). -/
def State.faultO (s : State) : Bool :=
  match s.mode with
  | .run => false
  | .faulted => true

/-- The state after reset of a block with the parameters `c` (10 R35, 70 R180). The host has issued
nothing (log entry 5). -/
def State.resetWith (c : Config) : State :=
  { br := [], mode := .run, fcause := 0#4, fcmd := 0#32, cfg := c, rsp := none, inputs := [] }

/-- The machine right after hardware reset (10 R35), with the parameters of `Config.default` (log entries 1, 2). -/
def State.reset : State := State.resetWith Config.default

/-- Reasons a step stops for good. There is none: every fault of the block completes its command with a
response and is recorded (60 R160), and no behaviour of the block is stuck (93, after U16), so every fault
is a next state, taken by `State.raise`. -/
inductive Fault where
deriving DecidableEq, Repr

/-- Reasons a step has no meaning. -/
inductive Refusal where
  /-- An instruction of the table with no meaning yet. Raised by no arm of `exec` at present. Safe. -/
  | notModelled (mnemonic : String)
  /-- Raised by `issue`, `execLdb` and `execXtr` on a pair whose payload length is not the one its word asks
  for: not a command of the interface, neither a fault nor `Halted` (30 R72, 93 U11). Safe: nothing is said
  of what follows. -/
  | payloadMismatch
deriving DecidableEq, Repr

/-- The outcome of a command. -/
abbrev Result := Host.Outcome State Fault Refusal

end Sys2Proof.Machine
end

