-- ==== Sys2Proof/Machine/Flags.lean ====
section
/-! DEFINITION. The response's status, flag and reason: their codes, the 40-bit record, and the shapes a
response can have (spec 30 R63 to R66, 60 R150). The block keeps no flag between commands (10 R25). -/

namespace Sys2Proof.Machine

/-- The cause codes (60 R150). -/
def Cause.code : Cause → BitVec 4
  | .formatError => 1#4
  | .invalidState => 2#4
  | .indexError => 3#4
  | .capacityError => 4#4
  | .illegalCommand => 5#4

/-- The status codes: a fault's code is its cause code (30 R64). -/
def Status.code : Status → BitVec 4
  | .ok => 0#4
  | .fault c => c.code
  | .halted => 6#4

/-- The reason codes (30 R65). -/
def NotFound.code : NotFound → BitVec 3
  | .tooShort => 1#3
  | .headerMismatch => 2#3
  | .noOneBit => 3#3
  | .badTerminator => 4#3

/-- The reason field `NX`: 0 when there is no reason (30 R65). -/
def nxCode : Option NotFound → BitVec 3
  | none => 0#3
  | some r => r.code

/-- The 40-bit record: `ST = rsp[39:36]`, `F = rsp[35]`, `NX = rsp[34:32]`, `RES = rsp[31:0]` (30 R63). -/
def Response.record (r : Response) : BitVec 40 :=
  ((r.st.code ++ BitVec.ofBool r.f) ++ nxCode r.nx) ++ r.res

/-- `ok(F, 0, RES)` with no payload (00 R11). -/
def Response.ok (f : Bool) (res : Word) : Response :=
  { st := .ok, f := f, nx := none, res := res, dout := [] }

/-- `ok(F, 0, RES)` with the output payload `dout`; `RES` is its length in bytes (30 R66). -/
def Response.bytes (f : Bool) (dout : List Byte) : Response :=
  { st := .ok, f := f, nx := none, res := BitVec.ofNat 32 dout.length, dout := dout }

/-- The negative result `ok(0, NX, 0)` (30 R65, 60 R157). -/
def Response.notFound (r : NotFound) : Response :=
  { st := .ok, f := false, nx := some r, res := 0#32, dout := [] }

/-- The response of a fault, `rsp(c, 0, 0, 0)` (60 R160). -/
def Response.fault (c : Cause) : Response :=
  { st := .fault c, f := false, nx := none, res := 0#32, dout := [] }

/-- The refusal `rsp(6, 0, 0, 0)` of FAULTED mode (60 R156). -/
def Response.halted : Response :=
  { st := .halted, f := false, nx := none, res := 0#32, dout := [] }

end Sys2Proof.Machine
end

