-- ==== Sys2Proof/Machine/Ops.lean ====
section
/-! DEFINITION. The named operations over the bit register and the fault record: completing a command,
taking a fault, the two returns from it, and the operations on bit sequences (spec 20, 40 to 43, 60). -/

namespace Sys2Proof.Machine

/-! ### Completing a command -/

/-- The command is complete when its response is produced (10 R24). -/
def State.respond (s : State) (r : Response) : State := { s with rsp := some r }

/-- The command completes with a new sequence and a response. -/
def State.answer (s : State) (br : Bits) (r : Response) : State := { s with br := br, rsp := some r }

/-- `raise <Fault>` (60 R160): the cause and the command word are recorded, the mode becomes FAULTED, the
response is `rsp(c, 0, 0, 0)`; the sequence is untouched. Nothing else is saved: there is no handler. -/
def State.raise (s : State) (c : Cause) (cmd : Word) : State :=
  { s with mode := .faulted, fcause := c.code, fcmd := cmd, rsp := some (Response.fault c) }

/-- The first check of every command but a legal `RDC` and a legal `RST` (40 R97, 60 R156): in FAULTED
mode the answer is `Halted` and nothing changes; in RUN mode the command's own rule gives the next state. -/
def State.accept (s : State) (next : State) : Result :=
  match s.mode with
  | .run => .next next
  | .faulted => .next (s.respond Response.halted)

/-- A command word that matches no row (30 R70, 60 R155), in either mode. -/
def State.illegal (s : State) (w : Word) : Result := s.accept (s.raise .illegalCommand w)

/-- The return from FAULTED mode by `RST` (44 R141, 60 R162): the sequence is emptied, the record cleared.
The parameters are wired, and the host's stream is the host's. -/
def State.softReset (s : State) : State :=
  { s with br := [], mode := .run, fcause := 0#4, fcmd := 0#32 }

/-- Hardware reset (70 R180): as `softReset`, and no response is pending. -/
def State.hardReset (s : State) : State := { s.softReset with rsp := none }

/-! ### Bits and bytes (20 R42 to R44) -/

/-- `ceil8(n)` (00 R12). -/
def ceil8 (n : Nat) : Nat := (n + 7) / 8 * 8

/-- The bits of a byte, least significant first (20 R42). -/
def byteBits (b : Byte) : Bits := (List.range 8).map b.getLsbD

/-- The load mapping (20 R43): `BR[8*k + j] = d[k][j]`. -/
def loadBits (din : List Byte) : Bits := din.flatMap byteBits

/-- The byte whose bit `j` is the `j`-th of the first eight bits of the list. -/
def byteOf (bs : Bits) : Byte := (BitVec.ofBoolListLE (bs.take 8)).setWidth 8

/-- The export mapping (20 R44): `LEN div 8` bytes, `out[k][j] = BR[8*k + j]`. -/
def exportBytes (br : Bits) : List Byte := (List.range (br.length / 8)).map fun k => byteOf (br.drop (8 * k))

/-- A number as a bit or a length in `RES`, zero-extended (30 R66). -/
def resOf (n : Nat) : Word := BitVec.ofNat 32 n

/-- A bit in `RES`, zero-extended (30 R66). -/
def resOfBit (b : Bool) : Word := (BitVec.ofBool b).setWidth 32

/-! ### Operations on the sequence -/

/-- set-length: truncating drops the high-order bits, extending fills with 0 (40 R94). -/
def setLength (n : Nat) (br : Bits) : Bits := br.take n ++ List.replicate (n - br.length) false

/-- left-shift-by `n`: the first `n` bits go, the rest move toward index 0, as many zeros enter at the end;
the length stays (40 R95). -/
def shiftOut (n : Nat) (br : Bits) : Bits := br.drop n ++ List.replicate (min n br.length) false

/-- The framer (42 R120): nothing for a length that is a multiple of 8; otherwise the six control bits and
zero fill up to `ceil8(old + 6)`. -/
def padBits (br : Bits) : Bits :=
  if br.length % 8 = 0 then br
  else br ++ padctlBits ++ List.replicate (ceil8 (br.length + 6) - (br.length + 6)) false

/-- The header check (43 R126): `none` for a match, otherwise why not. -/
def headerCheck (br : Bits) : Option NotFound :=
  if br.length < 16 then some .tooShort
  else if br.take 16 = chdrBits then none
  else some .headerMismatch

/-- The largest index that holds a 1 (43 R127). -/
def lastOne : Bits → Option Nat
  | [] => none
  | b :: bs =>
    match lastOne bs with
    | some i => some (i + 1)
    | none => if b then some 0 else none

/-- `tscan()` (43 R127): the index `L` of ISLASTEMPTY, or why there is no terminator. -/
def tscan (br : Bits) : Except NotFound Nat :=
  match lastOne br with
  | none => .error .noOneBit
  | some 0 => .error .badTerminator
  | some (l + 1) => if br.getD l false then .ok (l + 1) else .error .badTerminator

/-- The strip (43 R128): everything from index `L - 1` onward is dropped. -/
def stripAt (l : Nat) (br : Bits) : Bits := br.take (l - 1)

/-- Steps 2 to 7 of the extraction on a loaded sequence (43 R131): what is left in the register and the
response. -/
def extract (loaded : Bits) : Bits × Response :=
  match headerCheck loaded with
  | some r => (loaded, Response.notFound r)
  | none =>
    match tscan (shiftOut 16 loaded) with
    | .error r => (shiftOut 16 loaded, Response.notFound r)
    | .ok l =>
      (padBits (stripAt l (shiftOut 16 loaded)),
        Response.bytes true (exportBytes (padBits (stripAt l (shiftOut 16 loaded)))))

end Sys2Proof.Machine
end

