-- ==== Sys2Proof/Machine/Operands.lean ====
section
/-! DEFINITION. Operand forms (spec 30 R67, R68) and the checks made on them before any write. -/

namespace Sys2Proof.Machine

/-- An index, count or length operand: unsigned, as it stands (30 R67). -/
def argNat (a : Arg) : Nat := a.toNat

/-- The bit length of a byte count: times 8, on natural numbers (30 R67, 40 R98). -/
def bitLength (n : Arg) : Nat := 8 * n.toNat

/-- The bit at an index operand; none at or beyond `LEN` (40 R92). -/
def State.bitAt (s : State) (i : Arg) : Option Bool := s.br[argNat i]?

/-- A new length does not exceed `CAP_BITS` (60 R154). -/
def State.fits (s : State) (n : Nat) : Bool := n ≤ s.cfg.capBits.toNat

/-- The payload of a format P command must have `ARG` bytes; a pair that differs is refused without change
(30 R72, 93 U11). -/
def withPayload (n : Arg) (din : List Byte) (r : Result) : Result :=
  if din.length = n.toNat then r else .refused .payloadMismatch

end Sys2Proof.Machine
end

