-- ==== Sys2Proof/Machine/BitSeq.lean ====
section
/-! DEFINITION. The Bit-Sequence Engine: `CLR`, `LDB`, `GET`, `SET`, `SLEN`, `SHL`, `EXP` (spec 40). -/

namespace Sys2Proof.Machine

/-- `CLR` (40 R90). -/
def execClr (s : State) : Result := s.accept (s.answer [] (Response.ok false 0#32))

/-- `LDB n {din}` (40 R91). -/
def execLdb (n : Arg) (din : List Byte) (s : State) : Result :=
  withPayload n din <| s.accept <|
    if s.fits (bitLength n) then s.answer (loadBits din) (Response.ok false (resOf (bitLength n)))
    else s.raise .capacityError (encodeWord (.ldb n din))

/-- `GET i` (40 R92). -/
def execGet (i : Arg) (s : State) : Result :=
  s.accept <|
    match s.bitAt i with
    | some b => s.respond (Response.ok b (resOfBit b))
    | none => s.raise .indexError (encodeWord (.get i))

/-- `SET i, v` (40 R93). -/
def execSet (i : Arg) (v : Bool) (s : State) : Result :=
  s.accept <|
    match s.bitAt i with
    | some _ => s.answer (s.br.set (argNat i) v) (Response.ok false 0#32)
    | none => s.raise .indexError (encodeWord (.set i v))

/-- `SLEN n` (40 R94). -/
def execSlen (n : Arg) (s : State) : Result :=
  s.accept <|
    if s.fits (argNat n) then s.answer (setLength (argNat n) s.br) (Response.ok false (resOf (argNat n)))
    else s.raise .capacityError (encodeWord (.slen n))

/-- `SHL n` (40 R95). -/
def execShl (n : Arg) (s : State) : Result :=
  s.accept (s.answer (shiftOut (argNat n) s.br) (Response.ok false (resOf s.len)))

/-- `EXP` (40 R96). -/
def execExp (s : State) : Result :=
  s.accept <|
    if s.len % 8 = 0 then s.respond (Response.bytes false (exportBytes s.br))
    else s.raise .invalidState (encodeWord .exp)

end Sys2Proof.Machine
end

