-- ==== Sys2Proof/Machine/Extractor.lean ====
section
/-! DEFINITION. The Bare-Block Extractor: `HCHK`, `TFIND`, `TSTRIP`, `XTR` (spec 43), and the host's Stream
Assembler rule (44 R145). -/

namespace Sys2Proof.Machine

/-- `HCHK` (43 R126). -/
def execHchk (s : State) : Result :=
  s.accept <|
    match headerCheck s.br with
    | none => s.respond (Response.ok true 0#32)
    | some r => s.respond (Response.notFound r)

/-- `TFIND` (43 R127). -/
def execTfind (s : State) : Result :=
  s.accept <|
    match tscan s.br with
    | .ok l => s.respond (Response.ok true (resOf l))
    | .error r => s.respond (Response.notFound r)

/-- `TSTRIP` (43 R128). -/
def execTstrip (s : State) : Result :=
  s.accept <|
    match tscan s.br with
    | .ok l => s.answer (stripAt l s.br) (Response.ok true (resOf l))
    | .error r => s.respond (Response.notFound r)

/-- `XTR n {din}` (43 R131): step 1 loads or raises CapacityError, then `extract`. -/
def execXtr (n : Arg) (din : List Byte) (s : State) : Result :=
  withPayload n din <| s.accept <|
    if s.fits (bitLength n) then s.answer (extract (loadBits din)).1 (extract (loadBits din)).2
    else s.raise .capacityError (encodeWord (.xtr n din))

/-- The Stream Assembler rule, done by the host (44 R145): the canonical header's bytes, the bare blocks in
order, the terminator byte. -/
def assembleStream (blocks : List (List Byte)) : List Byte :=
  [0x6B#8, 0x00#8] ++ blocks.flatten ++ [term]

end Sys2Proof.Machine
end

