-- ==== Sys2Proof/Machine/Framer.lean ====
section
/-! DEFINITION. The Meta-Block Framer: `PAD` (spec 42). -/

namespace Sys2Proof.Machine

/-- `PAD` (42 R120): a no-op on an aligned length; CapacityError when the padded length exceeds `CAP_BITS`. -/
def execPad (s : State) : Result :=
  s.accept <|
    if s.len % 8 = 0 then s.respond (Response.ok false (resOf s.len))
    else if s.fits (ceil8 (s.len + 6)) then
      s.answer (padBits s.br) (Response.ok true (resOf (ceil8 (s.len + 6))))
    else s.raise .capacityError (encodeWord .pad)

end Sys2Proof.Machine
end

