-- ==== Sys2Proof/Machine/System.lean ====
section
/-! DEFINITION. The system commands: `RDC`, `RST` (spec 44). -/

namespace Sys2Proof.Machine

/-- `MODE` as its bit (10 R28). -/
def Mode.bit : Mode → BitVec 1
  | .run => 0#1
  | .faulted => 1#1

/-- `CR[k]`, zero-extended to 32 bits; none for `k >= 9` (10 R26, 44 R140). -/
def State.controlReg (s : State) (k : BitVec 4) : Option Word :=
  match k.toNat with
  | 0 => some (resOf s.len)
  | 1 => some (s.mode.bit.setWidth 32)
  | 2 => some (s.fcause.setWidth 32)
  | 3 => some s.fcmd
  | 4 => some (s.cfg.capBits.setWidth 32)
  | 5 => some (chdr.setWidth 32)
  | 6 => some (chdrLen.setWidth 32)
  | 7 => some (term.setWidth 32)
  | 8 => some (padctl.setWidth 32)
  | _ => none

/-- `RDC k` (44 R140): a legal read is accepted in both modes; `k >= 9` raises IllegalCommand in RUN mode
and is answered `Halted` in FAULTED mode (40 R97, 90 C13). -/
def execRdc (k : BitVec 4) (s : State) : Result :=
  match s.controlReg k with
  | some v => .next (s.respond (Response.ok false v))
  | none => s.illegal (encodeWord (.rdc k))

/-- `RST` (44 R141): accepted in both modes. -/
def execRst (s : State) : Result := .next (s.softReset.respond (Response.ok false 0#32))

end Sys2Proof.Machine
end

