-- ==== Sys2Proof/Machine/WBits.lean ====
section
/-! DEFINITION. The Window Header Codec: `WHLEN`, `WVAL`, `WCANON` (spec 41, 30 R73 to R76). -/

namespace Sys2Proof.Machine

/-- The length of a window code (30 R73). -/
inductive CodeLength where
  | one
  | four
  | seven
deriving DecidableEq, Repr

/-- In bits. -/
def CodeLength.bits : CodeLength → Nat
  | .one => 1
  | .four => 4
  | .seven => 7

/-- `four(b)`, given `b[0] = 1` (41 R110): `b[1:0] = 0b11` under `DOC`, `b[3:1] != 0b000` under `RFC`. -/
def isFourBit (rule : Wbits4Rule) (b : Byte) : Bool :=
  match rule with
  | .doc => b.extractLsb' 0 2 == 0b11#2
  | .rfc => b.extractLsb' 1 3 != 0b000#3

/-- decode-header-length, the tests in the order of 41 R110; `none` is FormatError. Bit 7 is not examined. -/
def headerLength (rule : Wbits4Rule) (b : Byte) : Option CodeLength :=
  if b.getLsbD 0 = false then some .one
  else if isFourBit rule b then some .four
  else if b.extractLsb' 0 4 = 0b0001#4 ∧ b.extractLsb' 0 7 ≠ wbitsReserved7 then some .seven
  else none

/-- The window size the code stands for (41 R112); `none` exactly when `headerLength` is `none`. -/
def windowSize (rule : Wbits4Rule) (b : Byte) : Option Nat :=
  match headerLength rule b with
  | none => none
  | some .one => some 16
  | some .four => some (17 + (b.extractLsb' 1 3).toNat)
  | some .seven =>
    if (b.extractLsb' 4 3).toNat = 0 then some 17 else some (8 + (b.extractLsb' 4 3).toNat)

/-- `WHLEN b` (41 R110). -/
def execWhlen (b : Byte) (s : State) : Result :=
  s.accept <|
    match headerLength s.cfg.wbits4 b with
    | some l => s.respond (Response.ok false (resOf l.bits))
    | none => s.raise .formatError (encodeWord (.whlen b))

/-- `WVAL b` (41 R112). -/
def execWval (b : Byte) (s : State) : Result :=
  s.accept <|
    match windowSize s.cfg.wbits4 b with
    | some w => s.respond (Response.ok false (resOf w))
    | none => s.raise .formatError (encodeWord (.wval b))

/-- `WCANON` (41 R114). -/
def execWcanon (s : State) : Result := s.accept (s.respond (Response.ok false wcanonResult))

/-! ### The code table as the spec prints it (30 R74) -/

/-- A row of the code table: the window size (none for the reserved pattern), the length in bits, and the
pattern as a number, bit 0 the first bit consumed. -/
structure WindowCode where
  window : Option Nat
  len : Nat
  pattern : Nat
deriving DecidableEq, Repr

/-- The table of 30 R74 (all rows but 16 and 22 supplied by the spec from general knowledge, 93 G1, G2).
No meaning reads it: it is what `WHLEN` and `WVAL` are held to (41 R115). -/
def windowCodeTable : List WindowCode :=
  [ ⟨some 16, 1, 0b0⟩,
    ⟨some 18, 4, 0b0011⟩, ⟨some 19, 4, 0b0101⟩, ⟨some 20, 4, 0b0111⟩, ⟨some 21, 4, 0b1001⟩,
    ⟨some 22, 4, 0b1011⟩, ⟨some 23, 4, 0b1101⟩, ⟨some 24, 4, 0b1111⟩,
    ⟨some 17, 7, 0b0000001⟩, ⟨none, 7, 0b0010001⟩,
    ⟨some 10, 7, 0b0100001⟩, ⟨some 11, 7, 0b0110001⟩, ⟨some 12, 7, 0b1000001⟩,
    ⟨some 13, 7, 0b1010001⟩, ⟨some 14, 7, 0b1100001⟩, ⟨some 15, 7, 0b1110001⟩ ]

end Sys2Proof.Machine
end

