-- ==== Sys2Proof/Machine/Dispatch.lean ====
section
/-! DEFINITION. One arm per command of spec 30 R69. -/

namespace Sys2Proof.Machine

def exec (i : Instr) (s : State) : Host.Outcome State Fault Refusal :=
  match i with
  | .clr => Sys2Proof.Machine.execClr s
  | .ldb n din => Sys2Proof.Machine.execLdb n din s
  | .get idx => Sys2Proof.Machine.execGet idx s
  | .set idx v => Sys2Proof.Machine.execSet idx v s
  | .slen n => Sys2Proof.Machine.execSlen n s
  | .shl n => Sys2Proof.Machine.execShl n s
  | .exp => Sys2Proof.Machine.execExp s
  | .whlen b => Sys2Proof.Machine.execWhlen b s
  | .wval b => Sys2Proof.Machine.execWval b s
  | .wcanon => Sys2Proof.Machine.execWcanon s
  | .pad => Sys2Proof.Machine.execPad s
  | .hchk => Sys2Proof.Machine.execHchk s
  | .tfind => Sys2Proof.Machine.execTfind s
  | .tstrip => Sys2Proof.Machine.execTstrip s
  | .xtr n din => Sys2Proof.Machine.execXtr n din s
  | .rdc k => Sys2Proof.Machine.execRdc k s
  | .rst => Sys2Proof.Machine.execRst s

end Sys2Proof.Machine
end

