-- ==== Sys2Proof/Machine/Issue.lean ====
section
/-! DEFINITION. One transaction: taking a command from the host, decoding it, executing it (spec 10 R24, 40 R97);
and the host's other move, hardware reset. -/

namespace Sys2Proof.Machine

/-- One transaction (40 R97): a word of no row is illegal, in either mode; a pair that is no command of the
interface is refused (30 R72, 93 U11); any other is executed, its meaning making the mode check. -/
def issue (c : Command) (s : State) : Result :=
  match decode c with
  | .ok i => exec i s
  | .error .illegalCommand => s.illegal c.word
  | .error .payloadMismatch => .refused .payloadMismatch

/-- The host's next move on a block, `rest` being what it does after it: with none left the block waits
(70 R180). -/
def takeInput (s : State) : Result :=
  match s.inputs with
  | [] => .next s
  | .reset :: rest => .next { s with inputs := rest }.hardReset
  | .command c :: rest => issue c { s with inputs := rest }

/-- The host's stream with a command put in front. -/
def State.withCommand (s : State) (c : Command) : State := { s with inputs := .command c :: s.inputs }

end Sys2Proof.Machine
end

