-- ==== Sys2Proof/Machine/Step.lean ====
section
/-! DEFINITION. The step: one move of the host and its whole effect (spec 20 R49, 70 R195). -/

namespace Sys2Proof.Machine

/-- One step. There is no program counter (10 R24): the command executed is the next one of the host. -/
def step (s : State) : Host.Outcome State Fault Refusal := takeInput s

/-- `s` with the command whose bits are `w` as the host's next. -/
def State.withFetchWord (s : State) (nbits w : Nat) : State := s.withCommand (commandOfBits nbits w)

end Sys2Proof.Machine
end

