-- ==== Sys2Proof/Safety.lean ====
section
/-! DEFINITION. The terms the claims use: what a legal state is, what a fault leaves, what the record of a
fault says, what a run and its result are (spec 10 R22 to R30, 30 R63 to R66, 60 R150 to R161, 70 R196). -/

namespace Sys2Proof.Machine

/-! ### States -/

/-- A response has the shape 30 R63 to R66 give: with `ST != 0` no flag, reason, result or payload; a reason
only with `F = 0` and no result; a payload of `RES` bytes or none. -/
abbrev Response.wf (r : Response) : Prop :=
  (r.st ≠ .ok → r.f = false ∧ r.nx = none ∧ r.res = 0#32 ∧ r.dout = []) ∧
  (r.nx ≠ none → r.f = false ∧ r.res = 0#32 ∧ r.dout = []) ∧
  (r.dout ≠ [] → r.dout.length = r.res.toNat)

/-- The fault record agrees with the mode: `MODE = FAULTED` exactly when `FCAUSE != 0` (10 R28), `FCAUSE` is 0
to 5 (10 R29), and nothing is recorded in RUN mode (10 R30). -/
abbrev State.recordOk (s : State) : Prop :=
  (s.mode = .faulted ↔ s.fcause ≠ 0#4) ∧ s.fcause.toNat ≤ 5 ∧ (s.mode = .run → s.fcmd = 0#32)

/-- A legal state of the block: legal parameters (00 R5), `LEN <= CAP_BITS` (10 R22), a record that agrees with
the mode, a response of the given shape. -/
abbrev State.Inv (s : State) : Prop :=
  s.cfg.legal ∧ s.len ≤ s.cfg.capBits.toNat ∧ s.recordOk ∧ (∀ r ∈ s.rsp, r.wf)

/-- What the record of a fault says of the state it froze (60 R150 to R155, 10 R30): the recorded word is one
that raises the recorded cause in this very state. -/
def State.recordExplained (s : State) : Prop :=
  (s.fcause = Cause.formatError.code →
    ∃ b : Byte, headerLength s.cfg.wbits4 b = none ∧ (s.fcmd = encodeWord (.whlen b) ∨ s.fcmd = encodeWord (.wval b))) ∧
  (s.fcause = Cause.invalidState.code → s.fcmd = 0x08000000#32 ∧ s.len % 8 ≠ 0) ∧
  (s.fcause = Cause.indexError.code →
    (opcOf s.fcmd = 0x03#8 ∨ opcOf s.fcmd = 0x04#8 ∨ opcOf s.fcmd = 0x05#8) ∧ s.len ≤ (argOf s.fcmd).toNat) ∧
  (s.fcause = Cause.capacityError.code →
    ((opcOf s.fcmd = 0x02#8 ∨ opcOf s.fcmd = 0x33#8) ∧ s.cfg.capBits.toNat < 8 * (argOf s.fcmd).toNat) ∨
    (opcOf s.fcmd = 0x06#8 ∧ s.cfg.capBits.toNat < (argOf s.fcmd).toNat) ∨
    (s.fcmd = 0x20000000#32 ∧ s.len % 8 ≠ 0 ∧ s.cfg.capBits.toNat < ceil8 (s.len + 6))) ∧
  (s.fcause = Cause.illegalCommand.code →
    (∀ r ∈ opcodeTable, r.selects s.fcmd = false) ∨ ∃ k : BitVec 4, 9 ≤ k.toNat ∧ s.fcmd = encodeWord (.rdc k))

/-- Only the sequence and the response may differ: mode, record, parameters and the host's stream are the same. -/
abbrev State.SameControl (s t : State) : Prop :=
  t.mode = s.mode ∧ t.fcause = s.fcause ∧ t.fcmd = s.fcmd ∧ t.cfg = s.cfg ∧ t.inputs = s.inputs

/-- The state a fault leaves (60 R160): record written, mode FAULTED, response `rsp(c, 0, 0, 0)`; sequence,
parameters and the host's stream as before. -/
abbrev State.FaultedFrom (s t : State) (c : Cause) (cmd : Word) : Prop :=
  t.mode = .faulted ∧ t.fcause = c.code ∧ t.fcmd = cmd ∧
  t.rsp = some { st := .fault c, f := false, nx := none, res := 0#32, dout := [] } ∧
  t.br = s.br ∧ t.cfg = s.cfg ∧ t.inputs = s.inputs

/-- `s` with a response and nothing else changed: what a command that changes no state leaves. -/
def State.answered (s : State) (st : Status) (f : Bool) (nx : Option NotFound) (res : Word) (dout : List Byte) : State :=
  { s with rsp := some { st := st, f := f, nx := nx, res := res, dout := dout } }

/-- Every piece of state has its value of 10 R35, `c` being the parameters of the block; the response is not meant
here (after `RST` it is that of `RST`, 44 R141, log entry 4). -/
abbrev State.atReset (t : State) (c : Config) : Prop :=
  t.len = 0 ∧ t.mode = .run ∧ t.fcause = 0#4 ∧ t.fcmd = 0#32 ∧ t.controlReg 4#4 = some (c.capBits.setWidth 32) ∧
  t.controlReg 5#4 = some 0x006B#32 ∧ t.controlReg 6#4 = some 16#32 ∧ t.controlReg 7#4 = some 0x03#32 ∧
  t.controlReg 8#4 = some 0x06#32 ∧ t.faultO = false

/-- A claim about a command sequence starts from a state with no fault recorded (60 R161). -/
abbrev State.noFault (s : State) : Prop := s.mode = .run ∧ s.fcause = 0#4

/-- Where the host sequence of 43 R130 stopped: at its end, or at a negative response. -/
structure SequenceResult where
  ended : Bool
  final : State
deriving DecidableEq, Repr

/-- The host sequence of 43 R130: it stops at the first response with `ST != 0`, or, for `HCHK` and `TSTRIP`,
with `F = 0`. None when a command of it has no response. -/
def execUntilNegative : List Instr → State → Option SequenceResult
  | [], s => some ⟨true, s⟩
  | i :: is, s =>
    match exec i s with
    | .next t =>
      match t.rsp with
      | some r =>
        if r.st ≠ .ok ∨ ((i = .hchk ∨ i = .tstrip) ∧ r.f = false) then some ⟨false, t⟩
        else execUntilNegative is t
      | none => none
    | .fault _ => none
    | .refused _ => none

/-- Two states that agree on everything but the bits of the sequence, its length included. -/
def State.agreeButBits (s t : State) : Prop := t.len = s.len ∧ t = { s with br := t.br }

/-! ### Runs (70 R196) -/

/-- The result of a run: the responses in order and the final state. -/
structure RunResult where
  responses : List Response
  final : State
deriving DecidableEq, Repr

/-- A run: a finite list of commands issued one after another. None when a pair of the list is no command. -/
def runCommands : List Command → State → Option RunResult
  | [], s => some ⟨[], s⟩
  | c :: cs, s =>
    match issue c s with
    | .next t =>
      match runCommands cs t with
      | some r => some ⟨t.rsp.toList ++ r.responses, r.final⟩
      | none => none
    | .fault _ => none
    | .refused _ => none

/-- A run is good if every `ST` is 0 (70 R196). -/
def RunResult.good (r : RunResult) : Bool := r.responses.all fun x => x.st == .ok

end Sys2Proof.Machine
end

