-- ==== Sys2Proof/Certificates/Slice0/Obligations.lean ====
section
/-! DEFINITION. The statements for the provers, from the numbered rules of spec 10 to 70. Each docstring names
the rule it formalises, or says what it is derived from. -/

open Sys2Proof Sys2Proof.Machine

/-! ## Encoding (spec 30) -/

/-- Words written out from 30 R61, R68, R69 decode to the command they stand for, at least one of each family
(the words of spec 95 L2 and L3). A sanity statement. -/
def Obligations.SpecWordsDecode : Prop :=
  decode ⟨0x01000000#32, []⟩ = .ok .clr ∧
  decode ⟨0x02000003#32, [0x6B#8, 0x00#8, 0xA5#8]⟩ = .ok (.ldb 3#24 [0x6B#8, 0x00#8, 0xA5#8]) ∧
  decode ⟨0x03000017#32, []⟩ = .ok (.get 23#24) ∧
  decode ⟨0x05000002#32, []⟩ = .ok (.set 2#24 true) ∧
  decode ⟨0x04FFFFFF#32, []⟩ = .ok (.set 16777215#24 false) ∧
  decode ⟨0x1000006B#32, []⟩ = .ok (.whlen 0x6B#8) ∧
  decode ⟨0x11000091#32, []⟩ = .ok (.wval 0x91#8) ∧
  decode ⟨0x20000000#32, []⟩ = .ok .pad ∧
  decode ⟨0x32000000#32, []⟩ = .ok .tstrip ∧
  decode ⟨0x33000001#32, [0x6B#8]⟩ = .ok (.xtr 1#24 [0x6B#8]) ∧
  decode ⟨0x40000008#32, []⟩ = .ok (.rdc 8#4) ∧
  decode ⟨0x7F000000#32, []⟩ = .ok .rst ∧
  decode ⟨0x00000000#32, []⟩ = .error .illegalCommand ∧
  decode ⟨0x7F000001#32, []⟩ = .error .illegalCommand

/-- Decode and encode agree: for every well-formed command, with every operand value the encoding admits,
decoding its encoding gives it back (derived from 30 R60, R61, R68, R69, R72). -/
def Obligations.DecodeOfEncodeIsIdentity : Prop :=
  ∀ i : Instr, i.wf = true → decode (encode i) = .ok i

/-- Every word has at most one meaning and no bit of it is ignored: what a pair decodes to is well formed and
encodes to that very pair (derived from 30 R62 "No field is ignored", R69, R72). -/
def Obligations.EncodeOfDecodeIsIdentity : Prop :=
  ∀ (c : Command) (i : Instr), decode c = .ok i → i.wf = true ∧ encode i = c

/-- 30 R69: a word selects the row with `w & mask = match`, the rows are pairwise disjoint, and the command a
word decodes to is the command of the row it selects; a word that selects no row decodes to none. -/
def Obligations.OpcodeTableDecidesTheCommand : Prop :=
  (∀ (w : Word), ∀ r ∈ opcodeTable, ∀ r' ∈ opcodeTable, r.selects w = true → r'.selects w = true → r = r') ∧
  (∀ (c : Command) (i : Instr), decode c = .ok i →
    ∃ r ∈ opcodeTable, r.selects c.word = true ∧ r.mnemonic = i.mnemonic) ∧
  (∀ c : Command, c.payload.length = payloadLength c.word →
    (decode c = .error .illegalCommand ↔ ∀ r ∈ opcodeTable, r.selects c.word = false))

/-- 30 R70: the illegal words are exactly those of an opcode byte not in the table, those of format N with
`ARG != 0`, of format B with `ARG[23:8] != 0`, of format R with `ARG[23:4] != 0`; in RUN mode each raises
IllegalCommand, and so does `RDC k` with `9 <= k <= 15`, which matches its row; an illegal word has no payload. -/
def Obligations.IllegalWordsRaiseIllegalCommand : Prop :=
  (∀ w : Word,
    decode ⟨w, []⟩ = .error .illegalCommand ↔
      (opcOf w ∉ [0x01#8, 0x02#8, 0x03#8, 0x04#8, 0x05#8, 0x06#8, 0x07#8, 0x08#8, 0x10#8, 0x11#8, 0x12#8,
        0x20#8, 0x30#8, 0x31#8, 0x32#8, 0x33#8, 0x40#8, 0x7F#8]) ∨
      (opcOf w ∈ [0x01#8, 0x08#8, 0x12#8, 0x20#8, 0x30#8, 0x31#8, 0x32#8, 0x7F#8] ∧ argOf w ≠ 0#24) ∨
      (opcOf w ∈ [0x10#8, 0x11#8] ∧ (argOf w).extractLsb' 8 16 ≠ 0#16) ∨
      (opcOf w = 0x40#8 ∧ (argOf w).extractLsb' 4 20 ≠ 0#20)) ∧
  (∀ (s : State) (w : Word), s.mode = .run → decode ⟨w, []⟩ = .error .illegalCommand →
    ∃ t, issue ⟨w, []⟩ s = .next t ∧ s.FaultedFrom t .illegalCommand w) ∧
  (∀ (s : State) (k : BitVec 4), s.mode = .run → 9 ≤ k.toNat →
    decode ⟨0x40000000#32 ||| k.setWidth 32, []⟩ = .ok (.rdc k) ∧
    ∃ t, exec (.rdc k) s = .next t ∧ s.FaultedFrom t .illegalCommand (0x40000000#32 ||| k.setWidth 32)) ∧
  (∀ c : Command, decode c = .error .illegalCommand → c.payload = [])

/-- The payload length is told from the word alone, and a pair whose list length differs is not a command:
decoding says so, and the step refuses it in either mode, neither a fault nor `Halted` (derived from 30 R72 and
93 U11; that the model refuses rather than makes it unrepresentable is the model's choice, log entry 6). -/
def Obligations.PayloadLengthIsCheckedFirst : Prop :=
  (∀ c : Command, decode c = .error .payloadMismatch ↔
    c.payload.length ≠ if opcOf c.word = 0x02#8 ∨ opcOf c.word = 0x33#8 then (argOf c.word).toNat else 0) ∧
  (∀ (s : State) (c : Command) (rest : List HostInput), s.inputs = .command c :: rest →
    decode c = .error .payloadMismatch → step s = .refused .payloadMismatch)

/-! ## One step (spec 10 R24, 20 R49, 40 R97, 70) -/

/-- A step runs the decoded command: when the host's next move is a command that decodes to `i`, the step is
`exec i` on the state from whose host stream that command is taken; nothing else is added around it (10 R24,
20 R49: one command per transaction, in the order the host issues them; the stream itself is the model's, log
entry 5). -/
def Obligations.StepExecutesTheDecodedCommand : Prop :=
  ∀ (s : State) (c : Command) (rest : List HostInput) (i : Instr), s.inputs = .command c :: rest →
    decode c = .ok i → step s = exec i { s with inputs := rest }

/-- 40 R97, the checks common to every command, in their order, on any command of the interface: (1) in FAULTED
mode a word that is no legal `RDC` and no legal `RST` is answered `Halted` and nothing changes, legal word or
not; (2) in RUN mode a word of no row, or `RDC k` with `k >= 9`, raises IllegalCommand; (3) otherwise the
command's own rule is executed; and a command that completes with `ST = 0` never changes `MODE`, `FCAUSE` or
`FCMD`, except `RST`. -/
def Obligations.CommonChecksInOrder : Prop :=
  ∀ (s : State) (c : Command) (rest : List HostInput), s.inputs = .command c :: rest →
    c.payload.length = payloadLength c.word →
    (s.mode = .faulted → (∀ k : BitVec 4, k.toNat ≤ 8 → c.word ≠ 0x40000000#32 ||| k.setWidth 32) →
      c.word ≠ 0x7F000000#32 →
      step s = .next (State.answered { s with inputs := rest } .halted false none 0#32 [])) ∧
    (s.mode = .run →
      ((∀ r ∈ opcodeTable, r.selects c.word = false) ∨
        ∃ k : BitVec 4, 9 ≤ k.toNat ∧ c.word = 0x40000000#32 ||| k.setWidth 32) →
      ∃ t, step s = .next t ∧ State.FaultedFrom { s with inputs := rest } t .illegalCommand c.word) ∧
    (∀ i, decode c = .ok i → step s = exec i { s with inputs := rest }) ∧
    (∀ t r, step s = .next t → t.rsp = some r → r.st = .ok → c.word ≠ 0x7F000000#32 →
      t.mode = s.mode ∧ t.fcause = s.fcause ∧ t.fcmd = s.fcmd)

/-- Every well-formed command answers a next state with its response, in every state (derived from 70 R195 "every
command is one atomic step that always completes", 30 R63). No step of the machine ends in an outcome `fault`: the faults
of the spec are next states, so the model's type `Fault` is empty and this clause holds of any step (deduced, log
entry 7). A step is refused only when the payload length of the pair issued is not the one its word asks for: the model's
choice of a treatment (log entry 6; 30 R72, 93 U11). -/
def Obligations.EveryCommandCompletes : Prop :=
  (∀ (i : Instr) (s : State), i.wf = true → ∃ t r, exec i s = .next t ∧ t.rsp = some r) ∧
  (∀ (s : State) (f : Fault), step s ≠ .fault f) ∧
  (∀ (s : State) (q : Refusal), step s = .refused q →
    ∃ c rest, s.inputs = .command c :: rest ∧ c.payload.length ≠ payloadLength c.word)

/-- Every step takes exactly the host's next move, payload included, whatever the answer (70 R194: the input
payload is always consumed), and changes no parameter of the block (70 R181, 10 R36). With no move left the block
waits (70 R180; that waiting is a step that changes nothing is the model's choice, log entry 5). -/
def Obligations.StepConsumesOneInput : Prop :=
  (∀ s t : State, step s = .next t → t.inputs = s.inputs.tail ∧ t.cfg = s.cfg) ∧
  (∀ s : State, s.inputs = [] → step s = .next s)

/-! ## Bit-Sequence Engine (spec 40, 20) -/

/-- 40 R90 `CLR`: the sequence becomes empty; the response is all zero; `MODE`, `FCAUSE`, `FCMD` are untouched. -/
def Obligations.ClrMakesTheSequenceEmpty : Prop :=
  decode ⟨0x01000000#32, []⟩ = .ok .clr ∧
  ∀ s : State, s.mode = .run →
    ∃ t, exec .clr s = .next t ∧ t.len = 0 ∧ t.rsp = some ⟨.ok, false, none, 0#32, []⟩ ∧ s.SameControl t

/-- 40 R91 `LDB`, with the load mapping of 20 R43: the sequence of length `8*n` with `BR[8*k + j] = d[k][j]`,
`RES = 8*n`; CapacityError, the old sequence kept, when `8*n > CAP_BITS`. -/
def Obligations.LdbLoadsThePayload : Prop :=
  ∀ (n : Arg) (din : List Byte), din.length = n.toNat →
    decode ⟨0x02000000#32 ||| n.setWidth 32, din⟩ = .ok (.ldb n din) ∧
    ∀ s : State, s.mode = .run →
      (8 * n.toNat ≤ s.cfg.capBits.toNat →
        ∃ t, exec (.ldb n din) s = .next t ∧ t.len = 8 * n.toNat ∧
          (∀ k j, k < n.toNat → j < 8 → t.br[8 * k + j]? = some ((din.getD k 0#8).getLsbD j)) ∧
          t.rsp = some ⟨.ok, false, none, BitVec.ofNat 32 (8 * n.toNat), []⟩ ∧ s.SameControl t) ∧
      (s.cfg.capBits.toNat < 8 * n.toNat →
        ∃ t, exec (.ldb n din) s = .next t ∧ s.FaultedFrom t .capacityError (0x02000000#32 ||| n.setWidth 32))

/-- 40 R92 `GET`: `F` and `RES` are the bit at the index, the state is unchanged; IndexError when `i >= LEN`. -/
def Obligations.GetReadsTheBit : Prop :=
  ∀ i : Arg, decode ⟨0x03000000#32 ||| i.setWidth 32, []⟩ = .ok (.get i) ∧
    ∀ s : State, s.mode = .run →
      (∀ h : i.toNat < s.br.length,
        exec (.get i) s = .next (s.answered .ok s.br[i.toNat] none (if s.br[i.toNat] then 1#32 else 0#32) [])) ∧
      (s.len ≤ i.toNat →
        ∃ t, exec (.get i) s = .next t ∧ s.FaultedFrom t .indexError (0x03000000#32 ||| i.setWidth 32))

/-- 40 R93 `SET`: only `BR[i]` changes, to `v`; `LEN` does not; IndexError when `i >= LEN`. -/
def Obligations.SetWritesOneBit : Prop :=
  ∀ (i : Arg) (v : Bool),
    decode ⟨0x04000000#32 ||| (BitVec.ofBool v).setWidth 32 <<< 24 ||| i.setWidth 32, []⟩ = .ok (.set i v) ∧
    ∀ s : State, s.mode = .run →
      (i.toNat < s.len →
        ∃ t, exec (.set i v) s = .next t ∧ t.len = s.len ∧ t.br[i.toNat]? = some v ∧
          (∀ j, j ≠ i.toNat → t.br[j]? = s.br[j]?) ∧ t.rsp = some ⟨.ok, false, none, 0#32, []⟩ ∧ s.SameControl t) ∧
      (s.len ≤ i.toNat →
        ∃ t, exec (.set i v) s = .next t ∧
          s.FaultedFrom t .indexError (0x04000000#32 ||| (BitVec.ofBool v).setWidth 32 <<< 24 ||| i.setWidth 32))

/-- 40 R94 `SLEN`: the length becomes `n`; the bits below both lengths are kept, every new bit is 0; `RES = n`;
CapacityError when `n > CAP_BITS`. -/
def Obligations.SlenTruncatesOrExtends : Prop :=
  ∀ n : Arg, decode ⟨0x06000000#32 ||| n.setWidth 32, []⟩ = .ok (.slen n) ∧
    ∀ s : State, s.mode = .run →
      (n.toNat ≤ s.cfg.capBits.toNat →
        ∃ t, exec (.slen n) s = .next t ∧ t.len = n.toNat ∧
          (∀ j, j < n.toNat → j < s.len → t.br[j]? = s.br[j]?) ∧
          (∀ j, j < n.toNat → s.len ≤ j → t.br[j]? = some false) ∧
          t.rsp = some ⟨.ok, false, none, n.setWidth 32, []⟩ ∧ s.SameControl t) ∧
      (s.cfg.capBits.toNat < n.toNat →
        ∃ t, exec (.slen n) s = .next t ∧ s.FaultedFrom t .capacityError (0x06000000#32 ||| n.setWidth 32))

/-- 40 R95 `SHL`: bit `i` becomes the old bit `i + n` where there is one and 0 elsewhere, `LEN` does not change
and is the result; no fault, whatever `n`. -/
def Obligations.ShlMovesBitsTowardIndexZero : Prop :=
  ∀ n : Arg, decode ⟨0x07000000#32 ||| n.setWidth 32, []⟩ = .ok (.shl n) ∧
    ∀ s : State, s.mode = .run →
      ∃ t, exec (.shl n) s = .next t ∧ t.len = s.len ∧
        (∀ j, j + n.toNat < s.len → t.br[j]? = s.br[j + n.toNat]?) ∧
        (∀ j, j < s.len → s.len ≤ j + n.toNat → t.br[j]? = some false) ∧
        t.rsp = some ⟨.ok, false, none, BitVec.ofNat 32 s.len, []⟩ ∧ s.SameControl t

/-- 40 R96 `EXP`, with the export mapping of 20 R44: when `LEN mod 8 = 0`, `LEN div 8` bytes with
`out[k][j] = BR[8*k + j]` and no change of state; otherwise InvalidState. -/
def Obligations.ExpExportsTheBytes : Prop :=
  decode ⟨0x08000000#32, []⟩ = .ok .exp ∧
  ∀ s : State, s.mode = .run →
    (s.len % 8 = 0 →
      ∃ dout, exec .exp s = .next (s.answered .ok false none (BitVec.ofNat 32 (s.len / 8)) dout) ∧
        dout.length = s.len / 8 ∧
        ∀ k j, k < s.len / 8 → j < 8 → (dout.getD k 0#8).getLsbD j = s.br.getD (8 * k + j) false) ∧
    (s.len % 8 ≠ 0 →
      ∃ t, exec .exp s = .next t ∧ s.FaultedFrom t .invalidState 0x08000000#32)

/-- Export is the exact inverse of load: `EXP` after an `LDB` that fits returns the loaded bytes (derived, as the
spec says, from 20 R43, R44). -/
def Obligations.ExportAfterLoadReturnsThePayload : Prop :=
  ∀ (s : State) (n : Arg) (din : List Byte), s.mode = .run → din.length = n.toNat →
    8 * n.toNat ≤ s.cfg.capBits.toNat →
    ∃ t u, exec (.ldb n din) s = .next t ∧ exec .exp t = .next u ∧ u.br = t.br ∧
      u.rsp = some ⟨.ok, false, none, n.setWidth 32, din⟩

/-- `SHL n` followed by `SLEN (LEN - n)` has the first `n` bits gone and the length reduced (derived from 70 R185,
40 R94, R95). -/
def Obligations.ShlThenSlenDropsTheFront : Prop :=
  ∀ (s : State) (n m : Arg), s.mode = .run → s.len ≤ s.cfg.capBits.toNat → n.toNat ≤ s.len →
    m.toNat = s.len - n.toNat →
    ∃ t u, exec (.shl n) s = .next t ∧ exec (.slen m) t = .next u ∧ u.br = s.br.drop n.toNat ∧ s.SameControl u

/-- Bits dropped by a shortening `SLEN` are gone, and a later lengthening brings zeros (derived from 70 R193,
40 R94). -/
def Obligations.ShorteningSlenLosesBits : Prop :=
  ∀ (s : State) (m n : Arg), s.mode = .run → m.toNat ≤ n.toNat → n.toNat ≤ s.cfg.capBits.toNat →
    ∃ t u, exec (.slen m) s = .next t ∧ exec (.slen n) t = .next u ∧ u.len = n.toNat ∧
      (∀ j, j < m.toNat → u.br[j]? = some (s.br.getD j false)) ∧
      ∀ j, m.toNat ≤ j → j < n.toNat → u.br[j]? = some false

/-! ## Window Header Codec (spec 41, 30 R74) -/

/-- 41 R110 `WHLEN`, its tests in their order, under either value of `P_WBITS4_RULE`; FormatError for every other
byte, which under `DOC` are those with `b[6:0] = 0x11` or `b[3:0]` equal to 5, 9 or 13, and under `RFC` those with
`b[6:0] = 0x11` only (derived: the reserved pattern `0b0010001` is the spec's, from general knowledge, 93 G2, log
entry 8). -/
def Obligations.WhlenClassifiesTheFirstByte : Prop :=
  ∀ b : Byte, decode ⟨0x10000000#32 ||| b.setWidth 32, []⟩ = .ok (.whlen b) ∧
    ∀ s : State, s.mode = .run →
      (b.getLsbD 0 = false → exec (.whlen b) s = .next (s.answered .ok false none 1#32 [])) ∧
      (b.getLsbD 0 = true →
        ((s.cfg.wbits4 = .doc ∧ b.extractLsb' 0 2 = 0b11#2) ∨ (s.cfg.wbits4 = .rfc ∧ b.extractLsb' 1 3 ≠ 0b000#3)) →
        exec (.whlen b) s = .next (s.answered .ok false none 4#32 [])) ∧
      (b.extractLsb' 0 4 = 0b0001#4 → b.extractLsb' 0 7 ≠ 0b0010001#7 →
        exec (.whlen b) s = .next (s.answered .ok false none 7#32 [])) ∧
      (b.getLsbD 0 = true →
        ¬ ((s.cfg.wbits4 = .doc ∧ b.extractLsb' 0 2 = 0b11#2) ∨ (s.cfg.wbits4 = .rfc ∧ b.extractLsb' 1 3 ≠ 0b000#3)) →
        ¬ (b.extractLsb' 0 4 = 0b0001#4 ∧ b.extractLsb' 0 7 ≠ 0b0010001#7) →
        ∃ t, exec (.whlen b) s = .next t ∧ s.FaultedFrom t .formatError (0x10000000#32 ||| b.setWidth 32)) ∧
      ((∃ t, exec (.whlen b) s = .next t ∧ s.FaultedFrom t .formatError (0x10000000#32 ||| b.setWidth 32)) ↔
        b.extractLsb' 0 7 = 0x11#7 ∨
          (s.cfg.wbits4 = .doc ∧ (b.extractLsb' 0 4 = 5#4 ∨ b.extractLsb' 0 4 = 9#4 ∨ b.extractLsb' 0 4 = 13#4)))

/-- 41 R112 `WVAL`: 16 for a 1-bit code, `17 + b[3:1]` for a 4-bit code, 17 or `8 + b[6:4]` for a 7-bit code, always
10 to 24; FormatError for the same bytes as `WHLEN` and no others (derived: all entries but 16 and 22 are the spec's,
from general knowledge, log entry 8). -/
def Obligations.WvalDecodesTheWindowSize : Prop :=
  ∀ b : Byte, decode ⟨0x11000000#32 ||| b.setWidth 32, []⟩ = .ok (.wval b) ∧
    ∀ s : State, s.mode = .run →
      (b.getLsbD 0 = false → exec (.wval b) s = .next (s.answered .ok false none 16#32 [])) ∧
      (b.getLsbD 0 = true →
        ((s.cfg.wbits4 = .doc ∧ b.extractLsb' 0 2 = 0b11#2) ∨ (s.cfg.wbits4 = .rfc ∧ b.extractLsb' 1 3 ≠ 0b000#3)) →
        exec (.wval b) s = .next (s.answered .ok false none (17#32 + (b.extractLsb' 1 3).setWidth 32) [])) ∧
      (b.extractLsb' 0 7 = 0b0000001#7 → exec (.wval b) s = .next (s.answered .ok false none 17#32 [])) ∧
      (b.extractLsb' 0 4 = 0b0001#4 → 2 ≤ (b.extractLsb' 4 3).toNat →
        exec (.wval b) s = .next (s.answered .ok false none (8#32 + (b.extractLsb' 4 3).setWidth 32) [])) ∧
      ((∃ t, exec (.wval b) s = .next t ∧ s.FaultedFrom t .formatError (0x11000000#32 ||| b.setWidth 32)) ↔
        ∃ t, exec (.whlen b) s = .next t ∧ s.FaultedFrom t .formatError (0x10000000#32 ||| b.setWidth 32)) ∧
      (∀ t r, exec (.wval b) s = .next t → t.rsp = some r → r.st = .ok → 10 ≤ r.res.toNat ∧ r.res.toNat ≤ 24)

/-- The code table of 30 R74 against the decoder (derived by the spec in 41 R115 a): for every row but the reserved
one and every byte whose low `len` bits equal the pattern, `WHLEN` gives the length and `WVAL` the window size,
under `RFC` for all rows and under `DOC` for all but 19, 21 and 23. -/
def Obligations.WindowCodeTableDecodes : Prop :=
  ∀ row ∈ windowCodeTable, ∀ w, row.window = some w →
    ∀ (b : Byte) (s : State), b.toNat % 2 ^ row.len = row.pattern → s.mode = .run →
      (s.cfg.wbits4 = .rfc ∨ (w ≠ 19 ∧ w ≠ 21 ∧ w ≠ 23)) →
      exec (.whlen b) s = .next (s.answered .ok false none (BitVec.ofNat 32 row.len) []) ∧
      exec (.wval b) s = .next (s.answered .ok false none (BitVec.ofNat 32 w) [])

/-- The prefix code property (derived by the spec in 41 R115 c): when `WHLEN b` does not fault, every byte with the
same low `WHLEN b` bits has the same `WHLEN` and the same `WVAL`. -/
def Obligations.WindowCodeIsAPrefixCode : Prop :=
  ∀ (s t : State) (r : Response) (b b' : Byte), s.mode = .run → exec (.whlen b) s = .next t → t.rsp = some r →
    r.st = .ok → b.toNat % 2 ^ r.res.toNat = b'.toNat % 2 ^ r.res.toNat →
    exec (.whlen b') s = exec (.whlen b) s ∧ exec (.wval b') s = exec (.wval b) s

/-- `WVAL` is onto 10 to 24 under `RFC` and onto 10 to 18, 20, 22, 24 under `DOC`, and gives nothing else (derived by
the spec in 41 R115 b). -/
def Obligations.WvalIsOntoTheWindowSizes : Prop :=
  ∀ (s : State) (w : Nat), s.mode = .run →
    ((∃ b : Byte, exec (.wval b) s = .next (s.answered .ok false none (BitVec.ofNat 32 w) []) ∧ w < 2 ^ 32) ↔
      (10 ≤ w ∧ w ≤ 24 ∧ (s.cfg.wbits4 = .doc → w ≠ 19 ∧ w ≠ 21 ∧ w ≠ 23)))

/-- 41 R114 `WCANON`: `RES[3:0] = 0b1011`, `RES[11:8] = 4`, all other bits zero, `F = 0`, `NX = 0`, state unchanged. -/
def Obligations.WcanonReturnsTheCanonicalCode : Prop :=
  decode ⟨0x12000000#32, []⟩ = .ok .wcanon ∧
  ∀ s : State, s.mode = .run → exec .wcanon s = .next (s.answered .ok false none 0x0000040B#32 [])

/-! ## Meta-Block Framer (spec 42) -/

/-- 42 R120 `PAD`: a no-op on a length that is a multiple of 8; otherwise the six control bits `0,1,1,0,0,0` after the
old bits, then zeros up to `ceil8(old + 6)`, with `F = 1` and the new length as result; CapacityError when that
length exceeds `CAP_BITS`, which in a legal state is exactly when `old > CAP_BITS - 6` at residue 3 to 7. -/
def Obligations.PadAppendsTheEmptyMetaBlock : Prop :=
  decode ⟨0x20000000#32, []⟩ = .ok .pad ∧
  ∀ s : State, s.mode = .run →
    (s.len % 8 = 0 → exec .pad s = .next (s.answered .ok false none (BitVec.ofNat 32 s.len) [])) ∧
    (s.len % 8 ≠ 0 → (s.len + 6 + 7) / 8 * 8 ≤ s.cfg.capBits.toNat →
      ∃ t, exec .pad s = .next t ∧ t.len = (s.len + 6 + 7) / 8 * 8 ∧
        (∀ j, j < s.len → t.br[j]? = s.br[j]?) ∧
        t.br[s.len]? = some false ∧ t.br[s.len + 1]? = some true ∧ t.br[s.len + 2]? = some true ∧
        t.br[s.len + 3]? = some false ∧ t.br[s.len + 4]? = some false ∧ t.br[s.len + 5]? = some false ∧
        (∀ j, s.len + 6 ≤ j → j < t.len → t.br[j]? = some false) ∧
        t.rsp = some ⟨.ok, true, none, BitVec.ofNat 32 ((s.len + 6 + 7) / 8 * 8), []⟩ ∧ s.SameControl t) ∧
    (s.len % 8 ≠ 0 → s.cfg.capBits.toNat < (s.len + 6 + 7) / 8 * 8 →
      ∃ t, exec .pad s = .next t ∧ s.FaultedFrom t .capacityError 0x20000000#32) ∧
    (s.Inv →
      ((∃ t, exec .pad s = .next t ∧ s.FaultedFrom t .capacityError 0x20000000#32) ↔
        s.cfg.capBits.toNat - 6 < s.len ∧ 3 ≤ s.len % 8))

/-- After a `PAD` that does not fault, the length is a multiple of 8, a second `PAD` is a no-op and `EXP` cannot raise
InvalidState (derived from 42 R120, R123, 70 R186). -/
def Obligations.PadAlignsForExport : Prop :=
  ∀ s t : State, exec .pad s = .next t → t.mode = .run →
    t.len % 8 = 0 ∧ s.br <+: t.br ∧
    (∃ u, exec .pad t = .next u ∧ u.br = t.br ∧ u.rsp = some ⟨.ok, false, none, BitVec.ofNat 32 t.len, []⟩) ∧
    ∃ u r, exec .exp t = .next u ∧ u.rsp = some r ∧ r.st = .ok ∧ u.mode = .run

/-- The canonical header is the code for window 22 padded by the framer (derived by the spec in 10 R31, 70 R181): `PAD`
on the bits `1,1,0,1` gives the bits of `CHDR`, whose bytes are `6B 00`, and the header check matches them. -/
def Obligations.CanonicalHeaderIsThePaddedCode : Prop :=
  ∀ s : State, s.mode = .run → s.br = [true, true, false, true] → 16 ≤ s.cfg.capBits.toNat →
    ∃ t u v, exec .pad s = .next t ∧ t.len = 16 ∧ (∀ j, j < 16 → t.br[j]? = some ((0x006B#16).getLsbD j)) ∧
      exec .exp t = .next u ∧ u.rsp = some ⟨.ok, false, none, 2#32, [0x6B#8, 0x00#8]⟩ ∧
      exec .hchk t = .next v ∧ v.rsp = some ⟨.ok, true, none, 0#32, []⟩

/-! ## Bare-Block Extractor (spec 43) -/

/-- 43 R126 `HCHK`: TooShort below 16 bits; a match exactly when the first 16 bits are those of `CHDR`; otherwise
HeaderMismatch; state unchanged, no fault. -/
def Obligations.HchkComparesSixteenBits : Prop :=
  decode ⟨0x30000000#32, []⟩ = .ok .hchk ∧
  ∀ s : State, s.mode = .run →
    (s.len < 16 → exec .hchk s = .next (s.answered .ok false (some .tooShort) 0#32 [])) ∧
    (16 ≤ s.len → (∀ i, i < 16 → s.br.getD i false = (0x006B#16).getLsbD i) →
      exec .hchk s = .next (s.answered .ok true none 0#32 [])) ∧
    (16 ≤ s.len → (∃ i, i < 16 ∧ s.br.getD i false ≠ (0x006B#16).getLsbD i) →
      exec .hchk s = .next (s.answered .ok false (some .headerMismatch) 0#32 []))

/-- 43 R127 `TFIND`: NoOneBit when there is no 1 bit; with `L` the largest index of a 1 bit, BadTerminator when
`L = 0` or `BR[L-1] = 0`, and otherwise found with `RES = L`; state unchanged, no fault. -/
def Obligations.TfindLocatesTheTerminator : Prop :=
  decode ⟨0x31000000#32, []⟩ = .ok .tfind ∧
  ∀ s : State, s.mode = .run →
    ((∀ j, j < s.len → s.br[j]? = some false) →
      exec .tfind s = .next (s.answered .ok false (some .noOneBit) 0#32 [])) ∧
    (∀ l, s.br[l]? = some true → (∀ j, l < j → j < s.len → s.br[j]? = some false) →
      ((l = 0 ∨ s.br[l - 1]? = some false) →
        exec .tfind s = .next (s.answered .ok false (some .badTerminator) 0#32 [])) ∧
      (l ≠ 0 → s.br[l - 1]? = some true →
        exec .tfind s = .next (s.answered .ok true none (BitVec.ofNat 32 l) [])))

/-- 43 R128 `TSTRIP`: the response of `TFIND`; when found, `LEN` becomes `L - 1` and the bits below it are kept; when
not found nothing changes; no fault. -/
def Obligations.TstripDropsTheTerminator : Prop :=
  decode ⟨0x32000000#32, []⟩ = .ok .tstrip ∧
  ∀ s : State, s.mode = .run →
    ((∀ j, j < s.len → s.br[j]? = some false) →
      exec .tstrip s = .next (s.answered .ok false (some .noOneBit) 0#32 [])) ∧
    (∀ l, s.br[l]? = some true → (∀ j, l < j → j < s.len → s.br[j]? = some false) →
      ((l = 0 ∨ s.br[l - 1]? = some false) →
        exec .tstrip s = .next (s.answered .ok false (some .badTerminator) 0#32 [])) ∧
      (l ≠ 0 → s.br[l - 1]? = some true →
        ∃ t, exec .tstrip s = .next t ∧ t.len = l - 1 ∧ (∀ j, j < l - 1 → t.br[j]? = s.br[j]?) ∧
          t.rsp = some ⟨.ok, true, none, BitVec.ofNat 32 l, []⟩ ∧ s.SameControl t))

/-- 43 R131 `XTR` with the state it leaves by outcome, 43 R132. `d i` is bit `i` of the payload, `x i` bit `i` after the
header shift. CapacityError with nothing changed; TooShort and HeaderMismatch with the loaded bytes; NoOneBit and
BadTerminator with the shifted ones; found with the bare block, its first `L - 1` bits those of the stream from
bit 16 on, then, when `L - 1` is no multiple of 8, the framer pattern; the output is the bytes of that sequence. -/
def Obligations.XtrExtractsTheBareBlock : Prop :=
  ∀ (n : Arg) (din : List Byte), din.length = n.toNat →
    decode ⟨0x33000000#32 ||| n.setWidth 32, din⟩ = .ok (.xtr n din) ∧
    ∀ s : State, s.mode = .run →
      (s.cfg.capBits.toNat < 8 * n.toNat →
        ∃ t, exec (.xtr n din) s = .next t ∧ s.FaultedFrom t .capacityError (0x33000000#32 ||| n.setWidth 32)) ∧
      (8 * n.toNat ≤ s.cfg.capBits.toNat →
        ∃ t, exec (.xtr n din) s = .next t ∧ s.SameControl t ∧
          let d : Nat → Bool := fun i => (din.getD (i / 8) 0#8).getLsbD (i % 8)
          let x : Nat → Bool := fun i => if i + 16 < 8 * n.toNat then d (i + 16) else false
          (n.toNat < 2 →
            t.rsp = some ⟨.ok, false, some .tooShort, 0#32, []⟩ ∧ t.len = 8 * n.toNat ∧
              ∀ i, i < 8 * n.toNat → t.br[i]? = some (d i)) ∧
          (2 ≤ n.toNat → (∃ i, i < 16 ∧ d i ≠ (0x006B#16).getLsbD i) →
            t.rsp = some ⟨.ok, false, some .headerMismatch, 0#32, []⟩ ∧ t.len = 8 * n.toNat ∧
              ∀ i, i < 8 * n.toNat → t.br[i]? = some (d i)) ∧
          (2 ≤ n.toNat → (∀ i, i < 16 → d i = (0x006B#16).getLsbD i) →
            ((∀ i, i < 8 * n.toNat → x i = false) →
              t.rsp = some ⟨.ok, false, some .noOneBit, 0#32, []⟩ ∧ t.len = 8 * n.toNat ∧
                ∀ i, i < 8 * n.toNat → t.br[i]? = some false) ∧
            (∀ l, l < 8 * n.toNat → x l = true → (∀ i, l < i → i < 8 * n.toNat → x i = false) →
              ((l = 0 ∨ x (l - 1) = false) →
                t.rsp = some ⟨.ok, false, some .badTerminator, 0#32, []⟩ ∧ t.len = 8 * n.toNat ∧
                  ∀ i, i < 8 * n.toNat → t.br[i]? = some (x i)) ∧
              (l ≠ 0 → x (l - 1) = true →
                (t.len = if (l - 1) % 8 = 0 then l - 1 else (l - 1 + 6 + 7) / 8 * 8) ∧
                (∀ i, i < l - 1 → t.br[i]? = some (x i)) ∧
                (∀ i, l - 1 ≤ i → i < t.len → t.br[i]? = some (i == l - 1 + 1 || i == l - 1 + 2)) ∧
                ∃ dout, t.rsp = some ⟨.ok, true, none, BitVec.ofNat 32 (t.len / 8), dout⟩ ∧
                  dout.length = t.len / 8 ∧
                  ∀ k j, k < t.len / 8 → j < 8 → t.br[8 * k + j]? = some ((dout.getD k 0#8).getLsbD j)))))

/-- `XTR` is the composition of the step commands (derived by the spec in 43 R130): with the same payload, from any
state in RUN mode, it leaves the sequence and answers exactly as `LDB`; `HCHK`; `SHL 16`; `TSTRIP`; `PAD`; `EXP` do,
that sequence stopping at its first response with `ST != 0` or, for `HCHK` and `TSTRIP`, with `F = 0`. If it runs to
the end, `F = 1`, `NX = 0` and `RES` and the payload are those of `EXP`. -/
def Obligations.XtrIsTheCompositionOfItsSteps : Prop :=
  ∀ (n : Arg) (din : List Byte) (s : State), din.length = n.toNat → s.mode = .run →
    ∃ t q rt rq, exec (.xtr n din) s = .next t ∧
      execUntilNegative [.ldb n din, .hchk, .shl 16#24, .tstrip, .pad, .exp] s = some q ∧
      t.rsp = some rt ∧ q.final.rsp = some rq ∧ t.br = q.final.br ∧ rt.dout = rq.dout ∧ rt.st = rq.st ∧
      (q.ended = true → rq.st = .ok ∧ rt.f = true ∧ rt.nx = none ∧ rt.res = rq.res) ∧
      (q.ended = false → rt.f = rq.f ∧ rt.nx = rq.nx)

/-- Extraction round trip (derived by the spec in 43 R134 a, b): the canonical header, any bytes, the terminator byte
and any number of zero bytes are found, and the bare block is exactly those bytes. -/
def Obligations.XtrReturnsTheWrappedBytes : Prop :=
  ∀ (s : State) (n : Arg) (body : List Byte) (zeros : Nat), s.mode = .run → n.toNat = body.length + 3 + zeros →
    8 * n.toNat ≤ s.cfg.capBits.toNat →
    ∃ t, exec (.xtr n ([0x6B#8, 0x00#8] ++ body ++ [0x03#8] ++ List.replicate zeros 0#8)) s = .next t ∧
      t.rsp = some ⟨.ok, true, none, BitVec.ofNat 32 body.length, body⟩ ∧ t.len = 8 * body.length ∧
      (∀ i, i < 8 * body.length → t.br[i]? = some ((body.getD (i / 8) 0#8).getLsbD (i % 8))) ∧ s.SameControl t

/-- The concatenation law in the block's terms (derived by the spec in 43 R134 c, 44 R145): extracting the stream the
Stream Assembler builds from bare blocks returns their concatenation. -/
def Obligations.AssembledStreamExtractsToItsBlocks : Prop :=
  ∀ (s : State) (n : Arg) (blocks : List (List Byte)), s.mode = .run → n.toNat = (assembleStream blocks).length →
    8 * n.toNat ≤ s.cfg.capBits.toNat →
    ∃ t, exec (.xtr n (assembleStream blocks)) s = .next t ∧
      t.rsp = some ⟨.ok, true, none, BitVec.ofNat 32 blocks.flatten.length, blocks.flatten⟩

/-- Bounds inside `XTR` when found (derived by the spec in 43 R133): `n >= 3`, the output has at most `n - 1` bytes, the
length is that of the output and a multiple of 8, and the only fault is CapacityError at step 1. -/
def Obligations.XtrOutputIsBounded : Prop :=
  ∀ (s t : State) (n : Arg) (din : List Byte) (r : Response), s.mode = .run → exec (.xtr n din) s = .next t →
    t.rsp = some r →
    (r.f = true → 3 ≤ n.toNat ∧ r.dout.length ≤ n.toNat - 1 ∧ t.len = 8 * r.dout.length ∧
      t.len + 8 ≤ s.cfg.capBits.toNat) ∧
    (r.st ≠ .ok → r.st = .fault .capacityError ∧ s.cfg.capBits.toNat < 8 * n.toNat ∧ t.br = s.br)

/-- 60 R157: NotExtractable is not a fault. A negative reason comes only from `HCHK`, `TFIND`, `TSTRIP` and `XTR`, with
`ST = 0` and `F = 0`; the mode stays RUN and nothing is recorded. -/
def Obligations.NotExtractableIsNotAFault : Prop :=
  ∀ (i : Instr) (s t : State) (r : Response), exec i s = .next t → t.rsp = some r → r.nx ≠ none →
    (i = .hchk ∨ i = .tfind ∨ i = .tstrip ∨ ∃ n din, i = .xtr n din) ∧
    r.st = .ok ∧ r.f = false ∧ r.res = 0#32 ∧ r.dout = [] ∧
    t.mode = .run ∧ t.fcause = s.fcause ∧ t.fcmd = s.fcmd

/-! ## System commands (spec 44, 10 R26) -/

/-- 44 R140 `RDC`: in either mode `RDC k` with `k <= 8` returns `LEN`, `MODE`, `FCAUSE`, `FCMD`, `CAP`, `CHDR`, `CHDRLEN`,
`TERM`, `PADCTL` zero-extended, with no side effect; `k = 9 .. 15` raises IllegalCommand in RUN mode and is answered
`Halted` in FAULTED mode. -/
def Obligations.RdcReadsTheControlRegisters : Prop :=
  (∀ k : BitVec 4, decode ⟨0x40000000#32 ||| k.setWidth 32, []⟩ = .ok (.rdc k)) ∧
  ∀ s : State,
    exec (.rdc 0#4) s = .next (s.answered .ok false none (BitVec.ofNat 32 s.len) []) ∧
    exec (.rdc 1#4) s = .next (s.answered .ok false none (if s.mode = .faulted then 1#32 else 0#32) []) ∧
    exec (.rdc 2#4) s = .next (s.answered .ok false none (s.fcause.setWidth 32) []) ∧
    exec (.rdc 3#4) s = .next (s.answered .ok false none s.fcmd []) ∧
    exec (.rdc 4#4) s = .next (s.answered .ok false none (s.cfg.capBits.setWidth 32) []) ∧
    exec (.rdc 5#4) s = .next (s.answered .ok false none 0x0000006B#32 []) ∧
    exec (.rdc 6#4) s = .next (s.answered .ok false none 16#32 []) ∧
    exec (.rdc 7#4) s = .next (s.answered .ok false none 0x03#32 []) ∧
    exec (.rdc 8#4) s = .next (s.answered .ok false none 0x06#32 []) ∧
    ∀ k : BitVec 4, 9 ≤ k.toNat →
      (s.mode = .run →
        ∃ t, exec (.rdc k) s = .next t ∧ s.FaultedFrom t .illegalCommand (0x40000000#32 ||| k.setWidth 32)) ∧
      (s.mode = .faulted → exec (.rdc k) s = .next (s.answered .halted false none 0#32 []))

/-- `RST` in either mode: the state afterwards is the reset state of 10 R35, the parameters being wired and the host's
stream the host's, with the all-zero response; a word `0x7F000000 | x` with `x != 0` is illegal (derived from 44 R141,
10 R35). That the state keeps this response, where 10 R35 says "no response pending", is the model's choice (log
entry 4), and so is the host's stream (log entry 5). -/
def Obligations.RstGivesTheResetState : Prop :=
  decode ⟨0x7F000000#32, []⟩ = .ok .rst ∧
  (∀ x : Arg, x ≠ 0#24 → decode ⟨0x7F000000#32 ||| x.setWidth 32, []⟩ = .error .illegalCommand) ∧
  ∀ s : State, exec .rst s =
    .next { State.resetWith s.cfg with rsp := some ⟨.ok, false, none, 0#32, []⟩, inputs := s.inputs }

/-! ## Faults and modes (spec 60) -/

/-- In FAULTED mode every command of the table other than a legal `RDC` and `RST` is answered `rsp(6, 0, 0, 0)` and nothing
changes (derived from 60 R156, whose illegal words are in `CommonChecksInOrder`). -/
def Obligations.FaultedModeRefusesCommands : Prop :=
  ∀ (i : Instr) (s : State), i.wf = true → s.mode = .faulted → i ≠ .rst → (∀ k, i = .rdc k → 9 ≤ k.toNat) →
    exec i s = .next (s.answered .halted false none 0#32 [])

/-- 60 R160: whenever a step enters FAULTED mode, the host's move was a command; `FCAUSE` is the code of a cause and
`FCMD` that command's word; the response is `rsp(c, 0, 0, 0)` with no payload; `BR` and `LEN` are those from before the
command, whose payload is discarded; `fault_o` is 1. -/
def Obligations.FaultEntryIsPrecise : Prop :=
  ∀ s t : State, s.mode = .run → step s = .next t → t.mode = .faulted →
    ∃ c rest cause, s.inputs = .command c :: rest ∧
      State.FaultedFrom { s with inputs := rest } t cause c.word ∧ t.faultO = true

/-- 60 R162: FAULTED mode is left only by `RST` (the word `0x7F000000`) or hardware reset, both of which empty the
sequence and clear the record. -/
def Obligations.FaultedModeIsLeftOnlyByReset : Prop :=
  ∀ s t : State, s.mode = .faulted → step s = .next t → t.mode = .run →
    ∃ rest, t.br = [] ∧ t.fcause = 0#4 ∧ t.fcmd = 0#32 ∧ t.inputs = rest ∧
      (s.inputs = .reset :: rest ∨ s.inputs = .command ⟨0x7F000000#32, []⟩ :: rest)

/-- 60 R163: faults do not nest. A step that starts and ends in FAULTED mode changes neither the record nor the
sequence (60 R161: the data state is frozen), and its response, when the host issued a command, is no fault. -/
def Obligations.RecordIsNeverOverwritten : Prop :=
  ∀ s t : State, s.mode = .faulted → step s = .next t → t.mode = .faulted →
    t.fcause = s.fcause ∧ t.fcmd = s.fcmd ∧ t.br = s.br ∧
    ∀ c rest, s.inputs = .command c :: rest → ∃ r, t.rsp = some r ∧ (r.st = .ok ∨ r.st = .halted)

/-- Isolation of the frozen data (derived from 60 R161: in FAULTED mode the sequence can be inspected only through
`RDC 0`): two FAULTED states that differ only in the bits of sequences of equal length answer every move of the host
alike, and stay so related. -/
def Obligations.FrozenBitsCannotBeRead : Prop :=
  ∀ s s' t t' : State, s.mode = .faulted → s.agreeButBits s' → step s = .next t → step s' = .next t' →
    t.agreeButBits t' ∧ t'.rsp = t.rsp

/-- A command raises at most one fault, and only its own (derived from 60 R159, for the commands of the table):
`GET`/`SET` only IndexError, `EXP` only InvalidState, `WHLEN`/`WVAL` only FormatError, `LDB`/`SLEN`/`PAD`/`XTR` only
CapacityError, `RDC` only IllegalCommand (for the word alone), the others none; in FAULTED mode nothing is raised. -/
def Obligations.EachCommandRaisesOnlyItsOwnFault : Prop :=
  ∀ (i : Instr) (s t : State) (r : Response) (c : Cause), exec i s = .next t → t.rsp = some r → r.st = .fault c →
    s.mode = .run ∧
    (c = .formatError ↔ (∃ b, i = .whlen b) ∨ ∃ b, i = .wval b) ∧
    (c = .invalidState ↔ i = .exp) ∧
    (c = .indexError ↔ (∃ j, i = .get j) ∨ ∃ j v, i = .set j v) ∧
    (c = .capacityError ↔ (∃ n d, i = .ldb n d) ∨ (∃ n, i = .slen n) ∨ i = .pad ∨ ∃ n d, i = .xtr n d) ∧
    (c = .illegalCommand ↔ ∃ k : BitVec 4, 9 ≤ k.toNat ∧ i = .rdc k)

/-- 60 R154: CapacityError exactly when the command would make `LEN` larger than `CAP_BITS`: `LDB n` and `XTR n` when
`8*n > CAP_BITS`, `SLEN n` when `n > CAP_BITS`, `PAD` when `ceil8(LEN + 6) > CAP_BITS` and `LEN mod 8 != 0`. -/
def Obligations.CapacityErrorExactly : Prop :=
  ∀ s : State, s.mode = .run →
    (∀ (n : Arg) (din : List Byte), din.length = n.toNat →
      ((∃ t, exec (.ldb n din) s = .next t ∧ s.FaultedFrom t .capacityError (encodeWord (.ldb n din))) ↔
        s.cfg.capBits.toNat < 8 * n.toNat) ∧
      ((∃ t, exec (.xtr n din) s = .next t ∧ s.FaultedFrom t .capacityError (encodeWord (.xtr n din))) ↔
        s.cfg.capBits.toNat < 8 * n.toNat)) ∧
    (∀ n : Arg, (∃ t, exec (.slen n) s = .next t ∧ s.FaultedFrom t .capacityError (encodeWord (.slen n))) ↔
      s.cfg.capBits.toNat < n.toNat) ∧
    ((∃ t, exec .pad s = .next t ∧ s.FaultedFrom t .capacityError (encodeWord .pad)) ↔
      s.cfg.capBits.toNat < (s.len + 6 + 7) / 8 * 8 ∧ s.len % 8 ≠ 0)

/-- A good run, one in which every `ST` is 0, from a state with no fault recorded answers every command with one
response and ends with no fault recorded (derived from 70 R196, 60 R161, 30 R63). -/
def Obligations.GoodRunEndsWithNoFault : Prop :=
  ∀ (cs : List Command) (s : State) (r : RunResult), s.noFault → runCommands cs s = some r → r.good = true →
    r.final.noFault ∧ r.responses.length = cs.length

/-! ## State over all commands (spec 10) -/

/-- Who writes `LEN` (derived from 10 R22, R27): it is written by `CLR`, `LDB`, `SLEN`, `PAD`, `TSTRIP`, `XTR`, `RST` and
by reset, and by nothing else; it never exceeds `CAP_BITS` in a legal state, and `RDC 0` reads it. -/
def Obligations.LengthIsWrittenByTheseCommandsOnly : Prop :=
  (∀ (i : Instr) (s t : State), exec i s = .next t → t.len ≠ s.len →
    i = .clr ∨ (∃ n d, i = .ldb n d) ∨ (∃ n, i = .slen n) ∨ i = .pad ∨ i = .tstrip ∨ (∃ n d, i = .xtr n d) ∨ i = .rst) ∧
  (∀ s t : State, step s = .next t → t.len ≠ s.len →
    ∃ rest, s.inputs = .reset :: rest ∨ ∃ c i, s.inputs = .command c :: rest ∧ decode c = .ok i) ∧
  (∀ s t : State, s.Inv → step s = .next t → t.len ≤ t.cfg.capBits.toNat) ∧
  (∀ s : State, s.Inv → ∃ t r, exec (.rdc 0#4) s = .next t ∧ t.rsp = some r ∧ r.res.toNat = s.len)

/-- Who writes `BR` (derived from 10 R23): the sequence is changed by `LDB`, `SET`, `SLEN`, `SHL`, `PAD`, `XTR`, `CLR`, `TSTRIP`,
`RST` only; `CLR`, `TSTRIP` and `RST` only drop cells; `GET`, `EXP`, `HCHK`, `TFIND`, `WHLEN`, `WVAL`, `WCANON` and `RDC`
leave it, and the parameters, as they were. -/
def Obligations.SequenceIsWrittenByTheseCommandsOnly : Prop :=
  ∀ (i : Instr) (s t : State), exec i s = .next t →
    (t.br ≠ s.br → (∃ n d, i = .ldb n d) ∨ (∃ j v, i = .set j v) ∨ (∃ n, i = .slen n) ∨ (∃ n, i = .shl n) ∨ i = .pad ∨
      (∃ n d, i = .xtr n d) ∨ i = .clr ∨ i = .tstrip ∨ i = .rst) ∧
    ((i = .clr ∨ i = .tstrip ∨ i = .rst) → t.br <+: s.br) ∧
    t.cfg = s.cfg ∧ t.inputs = s.inputs

/-- What a response carries (derived from 30 R63, R65, R66): with `ST != 0` no flag, reason, result or payload; with
`ST = 0`, `F = 1` only for `GET`, `PAD`, `HCHK`, `TFIND`, `TSTRIP`, `XTR`; `NX != 0` exactly for `HCHK`, `TFIND`, `TSTRIP`, `XTR`
with `F = 0`, and the reasons each can give; a payload only for `EXP` and for `XTR` with `F = 1`, and in a legal state
its length in bytes is `RES`. -/
def Obligations.ResponseShape : Prop :=
  ∀ (i : Instr) (s t : State) (r : Response), exec i s = .next t → t.rsp = some r →
    (r.st ≠ .ok → r.f = false ∧ r.nx = none ∧ r.res = 0#32 ∧ r.dout = []) ∧
    (r.f = true → (∃ j, i = .get j) ∨ i = .pad ∨ i = .hchk ∨ i = .tfind ∨ i = .tstrip ∨ ∃ n d, i = .xtr n d) ∧
    (r.st = .ok → (r.nx ≠ none ↔
      (i = .hchk ∨ i = .tfind ∨ i = .tstrip ∨ ∃ n d, i = .xtr n d) ∧ r.f = false)) ∧
    (i = .hchk → r.nx ≠ some .noOneBit ∧ r.nx ≠ some .badTerminator) ∧
    ((i = .tfind ∨ i = .tstrip) → r.nx ≠ some .tooShort ∧ r.nx ≠ some .headerMismatch) ∧
    (r.dout ≠ [] → (i = .exp ∨ ∃ n d, i = .xtr n d ∧ r.f = true) ∧ (s.Inv → r.dout.length = r.res.toNat))

/-- The response record: the places of its fields `ST = rsp[39:36]`, `F = rsp[35]`, `NX = rsp[34:32]`,
`RES = rsp[31:0]`, the status codes 0 to 6 with the five faults' equal to the cause codes, and the reason codes 0 to 4
(derived from 30 R63, R64, R65, 60 R150). -/
def Obligations.ResponseRecordFields : Prop :=
  (∀ r : Response,
    r.record.extractLsb' 36 4 = r.st.code ∧ r.record.getLsbD 35 = r.f ∧
    r.record.extractLsb' 32 3 = nxCode r.nx ∧ r.record.extractLsb' 0 32 = r.res) ∧
  Status.ok.code = 0#4 ∧ Status.halted.code = 6#4 ∧ (∀ c : Cause, (Status.fault c).code = c.code) ∧
  Cause.formatError.code = 1#4 ∧ Cause.invalidState.code = 2#4 ∧ Cause.indexError.code = 3#4 ∧
  Cause.capacityError.code = 4#4 ∧ Cause.illegalCommand.code = 5#4 ∧
  nxCode none = 0#3 ∧ nxCode (some .tooShort) = 1#3 ∧ nxCode (some .headerMismatch) = 2#3 ∧
  nxCode (some .noOneBit) = 3#3 ∧ nxCode (some .badTerminator) = 4#3

/-- The response, its flag and its reason are outputs of that command only; no later command reads them (derived from
10 R25, R34). -/
def Obligations.OutputsAreNotReadByCommands : Prop :=
  ∀ (i : Instr) (s : State) (o : Option Response), i.wf = true → exec i { s with rsp := o } = exec i s

/-! ## Invariants and reset (spec 10, 70) -/

/-- The value of every piece of state after hardware reset and after `RST`, for every value of the parameters, and no
response pending after hardware reset (derived from 10 R35). What is not the spec's: after `RST` the response of `RST` is
kept, so "no response pending" is not said there (the model's choice, log entry 4); hardware reset is a move of the host
(the model's choice, log entry 5); the parameters of the machine's own reset state (the model's choice, log entries 1
and 2). -/
def Obligations.ResetValues : Prop :=
  (∀ c : Config, (State.resetWith c).atReset c ∧ (State.resetWith c).rsp = none) ∧
  (∀ (s : State) (rest : List HostInput), s.inputs = .reset :: rest →
    ∃ t, step s = .next t ∧ t.atReset s.cfg ∧ t.rsp = none) ∧
  (∀ s : State, ∃ t, exec .rst s = .next t ∧ t.atReset s.cfg) ∧
  ∃ c : Config, c.legal ∧ State.reset = State.resetWith c

/-- Hardware reset puts the block in the reset state from any state (derived from 70 R180; that reset is a move of the
host between commands is the model's choice, log entry 5). -/
def Obligations.HardwareResetGivesTheResetState : Prop :=
  ∀ (s : State) (rest : List HostInput), s.inputs = .reset :: rest →
    step s = .next { State.resetWith s.cfg with inputs := rest }

/-- The state after reset as the commands see it (derived by the spec in 70 R182), for every value of the parameters:
`GET` and `SET` fault, `EXP` returns no bytes, `HCHK` answers TooShort, `TFIND` and `TSTRIP` answer NoOneBit, `PAD` and `SHL`
do nothing. -/
def Obligations.CommandsOnTheResetState : Prop :=
  ∀ (c : Config) (i : Arg) (v : Bool),
    (∃ t, exec (.get i) (State.resetWith c) = .next t ∧ (State.resetWith c).FaultedFrom t .indexError (encodeWord (.get i))) ∧
    (∃ t, exec (.set i v) (State.resetWith c) = .next t ∧
      (State.resetWith c).FaultedFrom t .indexError (encodeWord (.set i v))) ∧
    exec .exp (State.resetWith c) = .next ((State.resetWith c).answered .ok false none 0#32 []) ∧
    exec .hchk (State.resetWith c) = .next ((State.resetWith c).answered .ok false (some .tooShort) 0#32 []) ∧
    exec .tfind (State.resetWith c) = .next ((State.resetWith c).answered .ok false (some .noOneBit) 0#32 []) ∧
    exec .tstrip (State.resetWith c) = .next ((State.resetWith c).answered .ok false (some .noOneBit) 0#32 []) ∧
    exec .pad (State.resetWith c) = .next ((State.resetWith c).answered .ok false none 0#32 []) ∧
    exec (.shl i) (State.resetWith c) = .next ((State.resetWith c).answered .ok false none 0#32 [])

/-- Every step keeps a state legal (derived from 00 R5, 10 R22, R28, R29, R30, 30 R63): legal parameters,
`LEN <= CAP_BITS`, `MODE = FAULTED` exactly when `FCAUSE != 0`, `FCAUSE` 0 to 5, `FCMD = 0` in RUN mode, a response of the
given shape. -/
def Obligations.StepKeepsTheStateLegal : Prop :=
  ∀ s t : State, s.Inv → step s = .next t → t.Inv

/-- The reset state is legal and its (empty) record explained, for every legal value of the parameters, and so is the
machine's own (derived from 10 R35, 00 R5). -/
def Obligations.ResetStateIsLegal : Prop :=
  (∀ c : Config, c.legal → (State.resetWith c).Inv ∧ (State.resetWith c).recordExplained) ∧
  State.reset.Inv ∧ State.reset.recordExplained

/-- Every step keeps the fault record true of the frozen state (derived from 60 R150 to R155, R160, R161, 10 R30): the
recorded word is one that raises the recorded cause in the state as it stands, the offending index, byte or length
being in its operand. -/
def Obligations.StepKeepsTheRecordExplained : Prop :=
  ∀ s t : State, s.Inv → s.recordExplained → step s = .next t → t.recordExplained
end

