-- ==== Sys2Proof/Laws/Bits.lean ====
section
/-! SUPPORT. What each operation on bit sequences does, bit by bit: one set of lemmas per operation. -/

namespace Sys2Proof.Machine

/-! ### Bytes and bits -/

@[simp] theorem byteBits_length (b : Byte) : (byteBits b).length = 8 := by simp [byteBits]

theorem byteBits_getElem? (b : Byte) {j : Nat} (h : j < 8) : (byteBits b)[j]? = some (b.getLsbD j) := by
  simp [byteBits, h]

@[simp] theorem loadBits_nil : loadBits [] = [] := rfl

theorem loadBits_cons (b : Byte) (bs : List Byte) : loadBits (b :: bs) = byteBits b ++ loadBits bs := by
  simp [loadBits]

theorem loadBits_append (as bs : List Byte) : loadBits (as ++ bs) = loadBits as ++ loadBits bs := by
  simp [loadBits]

@[simp] theorem loadBits_length (din : List Byte) : (loadBits din).length = 8 * din.length := by
  induction din with
  | nil => rfl
  | cons b bs ih => simp [loadBits_cons, ih]; omega

/-- The load mapping (20 R43), by bit index. -/
theorem loadBits_getElem? (din : List Byte) (i : Nat) :
    (loadBits din)[i]? = if i < 8 * din.length then some ((din.getD (i / 8) 0#8).getLsbD (i % 8)) else none := by
  induction din generalizing i with
  | nil => simp
  | cons b bs ih =>
    rw [loadBits_cons, List.getElem?_append]
    by_cases h : i < 8
    · have h0 : i / 8 = 0 := by omega
      have h1 : i % 8 = i := by omega
      have h2 : i < 8 * (bs.length + 1) := by omega
      simp [h, h0, h1, h2, byteBits]
    · have h0 : i / 8 = (i - 8) / 8 + 1 := by omega
      have h1 : i % 8 = (i - 8) % 8 := by omega
      have h2 : (i - 8 < 8 * bs.length) ↔ i < 8 * (bs.length + 1) := by omega
      simp [h, ih, h0, h1, h2]

theorem byteOf_getLsbD (bs : Bits) {j : Nat} (h : j < 8) : (byteOf bs).getLsbD j = bs.getD j false := by
  simp [byteOf, BitVec.getLsbD_ofBoolListLE, h, List.getD_eq_getElem?_getD]

@[simp] theorem exportBytes_length (br : Bits) : (exportBytes br).length = br.length / 8 := by
  simp [exportBytes]

/-- The export mapping (20 R44). -/
theorem exportBytes_getLsbD (br : Bits) {k j : Nat} (hk : k < br.length / 8) (hj : j < 8) :
    ((exportBytes br).getD k 0#8).getLsbD j = br.getD (8 * k + j) false := by
  simp [exportBytes, List.getD_eq_getElem?_getD, hk, byteOf_getLsbD _ hj]

/-- Export is the inverse of load (20 R44). -/
theorem exportBytes_loadBits (din : List Byte) : exportBytes (loadBits din) = din := by
  apply List.ext_getElem
  · simp
  · intro k h1 h2
    apply BitVec.eq_of_getLsbD_eq
    intro j hj
    have hk : k < (loadBits din).length / 8 := by simpa using h1
    have h := exportBytes_getLsbD (loadBits din) hk hj
    have h3 : 8 * k + j < 8 * din.length := by omega
    have h4 : (8 * k + j) / 8 = k := by omega
    have h5 : (8 * k + j) % 8 = j := by omega
    rw [List.getD_eq_getElem?_getD, List.getElem?_eq_getElem h1, Option.getD_some, List.getD_eq_getElem?_getD,
      loadBits_getElem?, if_pos h3, Option.getD_some, h4, h5, List.getD_eq_getElem?_getD,
      List.getElem?_eq_getElem h2, Option.getD_some] at h
    exact h

/-! ### `setLength` -/

@[simp] theorem setLength_length (n : Nat) (br : Bits) : (setLength n br).length = n := by
  simp [setLength]; omega

theorem setLength_getElem? (n : Nat) (br : Bits) (i : Nat) :
    (setLength n br)[i]? = if i < n then some (br.getD i false) else none := by
  unfold setLength
  rw [List.getElem?_append, List.getElem?_take, List.getElem?_replicate]
  simp only [List.length_take, List.getD_eq_getElem?_getD]
  by_cases h : i < n
  · by_cases h2 : i < br.length
    · simp [h, h2]
    · have h3 : ¬ i < min n br.length := by omega
      have h4 : i - min n br.length < n - br.length := by omega
      simp [h, h2, h4]
  · have h3 : ¬ i < min n br.length := by omega
    have h4 : ¬ i - min n br.length < n - br.length := by omega
    simp [h, h4]

/-! ### `shiftOut` -/

@[simp] theorem shiftOut_length (n : Nat) (br : Bits) : (shiftOut n br).length = br.length := by
  simp [shiftOut]; omega

theorem shiftOut_getElem? (n : Nat) (br : Bits) (i : Nat) :
    (shiftOut n br)[i]? = if i < br.length then some (if i + n < br.length then br.getD (i + n) false else false) else none := by
  unfold shiftOut
  rw [List.getElem?_append, List.getElem?_drop, List.getElem?_replicate]
  simp only [List.length_drop, List.getD_eq_getElem?_getD]
  by_cases h : i + n < br.length
  · have h1 : i < br.length - n := by omega
    have h2 : i < br.length := by omega
    have h3 : n + i = i + n := by omega
    simp [h, h1, h2, h3]
  · have h1 : ¬ i < br.length - n := by omega
    by_cases h2 : i < br.length
    · have h4 : i - (br.length - n) < min n br.length := by omega
      simp only [h, h1, h2, h4, if_true, if_false]
    · have h4 : ¬ i - (br.length - n) < min n br.length := by omega
      simp only [h1, h2, h4, if_false]

/-! ### `padBits` -/

theorem le_ceil8 (n : Nat) : n ≤ ceil8 n := by unfold ceil8; omega

theorem ceil8_mod (n : Nat) : ceil8 n % 8 = 0 := by unfold ceil8; omega

theorem padBits_of_aligned {br : Bits} (h : br.length % 8 = 0) : padBits br = br := by simp [padBits, h]

theorem padBits_length {br : Bits} (h : br.length % 8 ≠ 0) : (padBits br).length = ceil8 (br.length + 6) := by
  have := le_ceil8 (br.length + 6)
  simp [padBits, h, padctlBits]; omega

theorem padBits_length_mod (br : Bits) : (padBits br).length % 8 = 0 := by
  by_cases h : br.length % 8 = 0
  · rw [padBits_of_aligned h, h]
  · rw [padBits_length h, ceil8_mod]

/-- The framer pattern (30 R77), by bit index. -/
theorem padBits_getElem? {br : Bits} (h : br.length % 8 ≠ 0) (i : Nat) :
    (padBits br)[i]? =
      if i < br.length then br[i]?
      else if i < ceil8 (br.length + 6) then some (i == br.length + 1 || i == br.length + 2) else none := by
  have hc := le_ceil8 (br.length + 6)
  simp only [padBits, h, if_false, padctlBits, List.append_assoc]
  rw [List.getElem?_append]
  by_cases h1 : i < br.length
  · simp [h1]
  · simp only [h1, if_false]
    obtain ⟨d, rfl⟩ : ∃ d, i = br.length + d := ⟨i - br.length, by omega⟩
    rw [show br.length + d - br.length = d by omega, List.getElem?_append]
    by_cases h2 : d < 6
    · have h3 : br.length + d < ceil8 (br.length + 6) := by omega
      rw [if_pos h3]
      have : d = 0 ∨ d = 1 ∨ d = 2 ∨ d = 3 ∨ d = 4 ∨ d = 5 := by omega
      rcases this with rfl | rfl | rfl | rfl | rfl | rfl <;> simp
    · have h4 : (br.length + d == br.length + 1 || br.length + d == br.length + 2) = false := by
        simp; omega
      rw [h4, List.getElem?_replicate]
      simp only [List.length_cons, List.length_nil, h2, if_false, Nat.zero_add, Nat.reduceAdd]
      by_cases h5 : br.length + d < ceil8 (br.length + 6)
      · have : d - 6 < ceil8 (br.length + 6) - (br.length + 6) := by omega
        simp [h5, this]
      · have : ¬ d - 6 < ceil8 (br.length + 6) - (br.length + 6) := by omega
        simp [h5, this]

/-! ### `headerCheck` -/

theorem headerCheck_tooShort {br : Bits} (h : br.length < 16) : headerCheck br = some .tooShort := by
  simp [headerCheck, h]

/-- A match is a match of all 16 bits (43 R126). -/
theorem headerCheck_eq_none {br : Bits} (h : 16 ≤ br.length) :
    headerCheck br = none ↔ ∀ i < 16, br.getD i false = chdr.getLsbD i := by
  have h0 : ¬ br.length < 16 := by omega
  simp only [headerCheck, h0, if_false, ite_eq_left_iff, reduceCtorEq, imp_false, not_not]
  have hc : ∀ i < 16, chdrBits[i]? = some (chdr.getLsbD i) := by decide
  constructor
  · intro he i hi
    have := hc i hi
    rw [← he, List.getElem?_take, if_pos hi] at this
    simp [List.getD_eq_getElem?_getD, this]
  · intro hb
    apply List.ext_getElem?
    intro i
    rw [List.getElem?_take]
    by_cases hi : i < 16
    · rw [if_pos hi, hc i hi, ← hb i hi, List.getD_eq_getElem?_getD, List.getElem?_eq_getElem (by omega : i < br.length)]
      rfl
    · rw [if_neg hi]
      exact (List.getElem?_eq_none (by simp [chdrBits]; omega)).symm

theorem headerCheck_cases (br : Bits) :
    headerCheck br = none ∨ headerCheck br = some .tooShort ∨ headerCheck br = some .headerMismatch := by
  unfold headerCheck; split_ifs <;> simp

/-! ### `lastOne` and `tscan` -/

/-- No 1 bit. -/
theorem lastOne_eq_none {br : Bits} : lastOne br = none ↔ ∀ i : Nat, br[i]? ≠ some true := by
  induction br with
  | nil => simp [lastOne]
  | cons b bs ih =>
    constructor
    · intro h i
      cases hl : lastOne bs with
      | some l => simp [lastOne, hl] at h
      | none =>
        cases i with
        | zero => cases b <;> simp_all [lastOne]
        | succ i => simpa using ih.1 hl i
    · intro h
      have h1 : lastOne bs = none := ih.2 fun i => by simpa using h (i + 1)
      have h0 := h 0
      cases b <;> simp_all [lastOne]

/-- The largest index that holds a 1. -/
theorem lastOne_eq_some {br : Bits} {l : Nat} :
    lastOne br = some l ↔ br[l]? = some true ∧ ∀ j : Nat, l < j → br[j]? ≠ some true := by
  induction br generalizing l with
  | nil => simp [lastOne]
  | cons b bs ih =>
    cases hl : lastOne bs with
    | some m =>
      have hm := (ih (l := m)).1 hl
      simp only [lastOne, hl, Option.some.injEq]
      constructor
      · rintro rfl
        refine ⟨by simpa using hm.1, fun j hj => ?_⟩
        obtain ⟨k, rfl⟩ : ∃ k, j = k + 1 := ⟨j - 1, by omega⟩
        simpa using hm.2 k (by omega)
      · rintro ⟨h1, h2⟩
        have := h2 (m + 1)
        simp only [List.getElem?_cons_succ, hm.1, ne_eq, not_true_eq_false, imp_false, not_lt] at this
        cases l with
        | zero => omega
        | succ l =>
          by_contra hne
          exact hm.2 l (by omega) (by simpa using h1)
    | none =>
      have hn := lastOne_eq_none.1 hl
      cases b with
      | false =>
        simp only [lastOne, hl]
        cases l with
        | zero => simp
        | succ l => simp [hn l]
      | true =>
        simp only [lastOne, hl, if_true, Option.some.injEq]
        cases l with
        | zero =>
          simp only [List.getElem?_cons_zero, true_and, true_iff]
          intro j hj
          obtain ⟨k, rfl⟩ : ∃ k, j = k + 1 := ⟨j - 1, by omega⟩
          simpa using hn k
        | succ l => simp [hn l]

theorem tscan_noOneBit {br : Bits} (h : ∀ i : Nat, br[i]? ≠ some true) : tscan br = .error .noOneBit := by
  simp [tscan, lastOne_eq_none.2 h]

theorem tscan_badTerminator {br : Bits} {l : Nat} (h : br[l]? = some true) (hl : ∀ j : Nat, l < j → br[j]? ≠ some true)
    (hb : l = 0 ∨ br[l - 1]? ≠ some true) : tscan br = .error .badTerminator := by
  have := lastOne_eq_some.2 ⟨h, hl⟩
  cases l with
  | zero => simp [tscan, this]
  | succ l =>
    have hf : br.getD l false = false := by
      have hne : br[l]? ≠ some true := by simpa using hb
      rw [List.getD_eq_getElem?_getD]
      cases hx : br[l]? with
      | none => rfl
      | some b => cases b <;> simp_all
    simp only [tscan, this, hf]; simp

theorem tscan_found {br : Bits} {l : Nat} (h : br[l]? = some true) (hl : ∀ j : Nat, l < j → br[j]? ≠ some true)
    (h0 : l ≠ 0) (hb : br[l - 1]? = some true) : tscan br = .ok l := by
  have := lastOne_eq_some.2 ⟨h, hl⟩
  cases l with
  | zero => exact absurd rfl h0
  | succ l => simp only [tscan, this]; simp_all [List.getD_eq_getElem?_getD]

/-- When the terminator is found, `1 <= L <= LEN - 1`, and ISLAST and ISLASTEMPTY are the last two 1 bits (43 R127). -/
theorem tscan_ok {br : Bits} {l : Nat} (h : tscan br = .ok l) :
    1 ≤ l ∧ l < br.length ∧ br[l]? = some true ∧ br[l - 1]? = some true ∧ ∀ j : Nat, l < j → br[j]? ≠ some true := by
  unfold tscan at h
  cases ho : lastOne br with
  | none => simp [ho] at h
  | some m =>
    cases m with
    | zero => simp [ho] at h
    | succ m =>
      simp only [ho] at h
      split at h
      · have hm := lastOne_eq_some.1 ho
        cases h
        refine ⟨by omega, ?_, hm.1, ?_, hm.2⟩
        · by_contra hge
          rw [List.getElem?_eq_none (by omega)] at hm
          simp at hm
        · rename_i hb
          rw [List.getD_eq_getElem?_getD] at hb
          cases hx : br[m]? with
          | none => simp [hx] at hb
          | some b => simp_all
      · cases h

theorem tscan_error {br : Bits} {r : NotFound} (h : tscan br = .error r) : r = .noOneBit ∨ r = .badTerminator := by
  unfold tscan at h
  split at h
  · cases h; exact .inl rfl
  · cases h; exact .inr rfl
  · split at h <;> cases h; exact .inr rfl

/-! ### `stripAt` -/

theorem stripAt_length {l : Nat} {br : Bits} (h : l < br.length) : (stripAt l br).length = l - 1 := by
  simp [stripAt]; omega

theorem stripAt_getElem? (l : Nat) (br : Bits) (i : Nat) :
    (stripAt l br)[i]? = if i < l - 1 then br[i]? else none := by
  simp [stripAt, List.getElem?_take]

end Sys2Proof.Machine
end

