-- ==== Sys2Proof/Laws/Encoding.lean ====
section
/-! SUPPORT. The fields of a command word, read from an opcode byte and an operand field put together, and from
the "match word or operand" form in which spec 40 to 44 write the words. -/

namespace Sys2Proof

@[simp] theorem opcOf_append (o : BitVec 8) (a : Arg) : opcOf (o ++ a) = o := BitVec.extractLsb'_append_eq_left

@[simp] theorem argOf_append (o : BitVec 8) (a : Arg) : argOf (o ++ a) = a := BitVec.extractLsb'_append_eq_right

/-- A word is its opcode byte and its operand field. -/
theorem opcOf_append_argOf (w : Word) : opcOf w ++ argOf w = w := by
  apply BitVec.eq_of_getLsbD_eq
  intro i hi
  rw [BitVec.getLsbD_append]
  simp only [opcOf, argOf, BitVec.getLsbD_extractLsb', Nat.zero_add]
  by_cases h : i < 24
  · simp [h]
  · have h1 : i - 24 < 8 := by omega
    have h2 : 24 + (i - 24) = i := by omega
    simp [h, h1, h2]

/-- Two words are equal when their opcode bytes and operand fields are. -/
theorem word_ext {v w : Word} (ho : opcOf v = opcOf w) (ha : argOf v = argOf w) : v = w := by
  rw [← opcOf_append_argOf v, ← opcOf_append_argOf w, ho, ha]

/-- The word "opcode byte above, or an operand of at most 24 bits below". -/
theorem append_or_setWidth (o : BitVec 8) (a : Arg) : ((o ++ 0#24 : Word) ||| a.setWidth 32) = o ++ a := by
  apply BitVec.eq_of_getLsbD_eq
  intro i hi
  simp only [BitVec.getLsbD_or, BitVec.getLsbD_append, BitVec.getLsbD_setWidth]
  by_cases h : i < 24
  · simp [h, hi]
  · simp [h, BitVec.getLsbD_of_ge a i (by omega)]

theorem append_and_append (o m : BitVec 8) (a b : Arg) : (o ++ a : Word) &&& (m ++ b) = (o &&& m) ++ (a &&& b) :=
  BitVec.and_append

@[simp] theorem opcOf_encodeWord_set (i : Arg) (v : Bool) :
    opcOf (encodeWord (.set i v)) = if v then 0x05#8 else 0x04#8 := by
  cases v <;> exact opcOf_append _ _

@[simp] theorem argOf_encodeWord_set (i : Arg) (v : Bool) : argOf (encodeWord (.set i v)) = i := by
  cases v <;> exact argOf_append _ _

/-! ### The words as spec 40 to 44 write them: the match word or the operand -/

theorem ldb_word (n : Arg) (din : List Byte) : 0x02000000#32 ||| n.setWidth 32 = encodeWord (.ldb n din) :=
  append_or_setWidth 0x02#8 n

theorem get_word (i : Arg) : 0x03000000#32 ||| i.setWidth 32 = encodeWord (.get i) := append_or_setWidth 0x03#8 i

theorem set_word (i : Arg) (v : Bool) :
    0x04000000#32 ||| (BitVec.ofBool v).setWidth 32 <<< 24 ||| i.setWidth 32 = encodeWord (.set i v) := by
  cases v with
  | false =>
    refine (append_or_setWidth 0x04#8 i).trans (word_ext ?_ ?_) <;> simp
  | true =>
    refine (append_or_setWidth 0x05#8 i).trans (word_ext ?_ ?_) <;> simp

theorem slen_word (n : Arg) : 0x06000000#32 ||| n.setWidth 32 = encodeWord (.slen n) := append_or_setWidth 0x06#8 n

theorem shl_word (n : Arg) : 0x07000000#32 ||| n.setWidth 32 = encodeWord (.shl n) := append_or_setWidth 0x07#8 n

theorem xtr_word (n : Arg) (din : List Byte) : 0x33000000#32 ||| n.setWidth 32 = encodeWord (.xtr n din) :=
  append_or_setWidth 0x33#8 n

theorem whlen_word (b : Byte) : 0x10000000#32 ||| b.setWidth 32 = encodeWord (.whlen b) := by revert b; decide

theorem wval_word (b : Byte) : 0x11000000#32 ||| b.setWidth 32 = encodeWord (.wval b) := by revert b; decide

theorem rdc_word (k : BitVec 4) : 0x40000000#32 ||| k.setWidth 32 = encodeWord (.rdc k) := by revert k; decide

/-! ### The low field of an operand whose high field is zero (formats B and R) -/

theorem arg_of_high_zero {lo hi : Nat} {a : BitVec (hi + lo)} (h : a.extractLsb' lo hi = 0#hi) :
    a = 0#hi ++ a.extractLsb' 0 lo := by
  apply BitVec.eq_of_getLsbD_eq
  intro i hi'
  rw [BitVec.getLsbD_append]
  by_cases hlo : i < lo
  · simp [hlo]
  · have := congrArg (fun x => BitVec.getLsbD x (i - lo)) h
    simp only [BitVec.getLsbD_extractLsb', show lo + (i - lo) = i by omega, show i - lo < hi by omega, decide_true,
      Bool.true_and, BitVec.getLsbD_zero] at this
    simp [hlo, this]

end Sys2Proof
end

