-- ==== Sys2Proof/Laws/State.lean ====
section
/-! SUPPORT. Every field after every update of the state, and what each shared operation on a state can answer. -/

namespace Sys2Proof.Machine

/-! ### `respond` -/

@[simp] theorem State.respond_br (s : State) (r : Response) : (s.respond r).br = s.br := rfl
@[simp] theorem State.respond_mode (s : State) (r : Response) : (s.respond r).mode = s.mode := rfl
@[simp] theorem State.respond_fcause (s : State) (r : Response) : (s.respond r).fcause = s.fcause := rfl
@[simp] theorem State.respond_fcmd (s : State) (r : Response) : (s.respond r).fcmd = s.fcmd := rfl
@[simp] theorem State.respond_cfg (s : State) (r : Response) : (s.respond r).cfg = s.cfg := rfl
@[simp] theorem State.respond_rsp (s : State) (r : Response) : (s.respond r).rsp = some r := rfl
@[simp] theorem State.respond_inputs (s : State) (r : Response) : (s.respond r).inputs = s.inputs := rfl
@[simp] theorem State.respond_len (s : State) (r : Response) : (s.respond r).len = s.len := rfl

/-! ### `answer` -/

@[simp] theorem State.answer_br (s : State) (b : Bits) (r : Response) : (s.answer b r).br = b := rfl
@[simp] theorem State.answer_mode (s : State) (b : Bits) (r : Response) : (s.answer b r).mode = s.mode := rfl
@[simp] theorem State.answer_fcause (s : State) (b : Bits) (r : Response) : (s.answer b r).fcause = s.fcause := rfl
@[simp] theorem State.answer_fcmd (s : State) (b : Bits) (r : Response) : (s.answer b r).fcmd = s.fcmd := rfl
@[simp] theorem State.answer_cfg (s : State) (b : Bits) (r : Response) : (s.answer b r).cfg = s.cfg := rfl
@[simp] theorem State.answer_rsp (s : State) (b : Bits) (r : Response) : (s.answer b r).rsp = some r := rfl
@[simp] theorem State.answer_inputs (s : State) (b : Bits) (r : Response) : (s.answer b r).inputs = s.inputs := rfl
@[simp] theorem State.answer_len (s : State) (b : Bits) (r : Response) : (s.answer b r).len = b.length := rfl

/-! ### `raise` -/

@[simp] theorem State.raise_br (s : State) (c : Cause) (w : Word) : (s.raise c w).br = s.br := rfl
@[simp] theorem State.raise_mode (s : State) (c : Cause) (w : Word) : (s.raise c w).mode = .faulted := rfl
@[simp] theorem State.raise_fcause (s : State) (c : Cause) (w : Word) : (s.raise c w).fcause = c.code := rfl
@[simp] theorem State.raise_fcmd (s : State) (c : Cause) (w : Word) : (s.raise c w).fcmd = w := rfl
@[simp] theorem State.raise_cfg (s : State) (c : Cause) (w : Word) : (s.raise c w).cfg = s.cfg := rfl
@[simp] theorem State.raise_rsp (s : State) (c : Cause) (w : Word) : (s.raise c w).rsp = some (Response.fault c) := rfl
@[simp] theorem State.raise_inputs (s : State) (c : Cause) (w : Word) : (s.raise c w).inputs = s.inputs := rfl
@[simp] theorem State.raise_len (s : State) (c : Cause) (w : Word) : (s.raise c w).len = s.len := rfl

/-! ### `softReset` and `hardReset` -/

@[simp] theorem State.softReset_br (s : State) : s.softReset.br = [] := rfl
@[simp] theorem State.softReset_mode (s : State) : s.softReset.mode = .run := rfl
@[simp] theorem State.softReset_fcause (s : State) : s.softReset.fcause = 0#4 := rfl
@[simp] theorem State.softReset_fcmd (s : State) : s.softReset.fcmd = 0#32 := rfl
@[simp] theorem State.softReset_cfg (s : State) : s.softReset.cfg = s.cfg := rfl
@[simp] theorem State.softReset_rsp (s : State) : s.softReset.rsp = s.rsp := rfl
@[simp] theorem State.softReset_inputs (s : State) : s.softReset.inputs = s.inputs := rfl

@[simp] theorem State.hardReset_br (s : State) : s.hardReset.br = [] := rfl
@[simp] theorem State.hardReset_mode (s : State) : s.hardReset.mode = .run := rfl
@[simp] theorem State.hardReset_fcause (s : State) : s.hardReset.fcause = 0#4 := rfl
@[simp] theorem State.hardReset_fcmd (s : State) : s.hardReset.fcmd = 0#32 := rfl
@[simp] theorem State.hardReset_cfg (s : State) : s.hardReset.cfg = s.cfg := rfl
@[simp] theorem State.hardReset_rsp (s : State) : s.hardReset.rsp = none := rfl
@[simp] theorem State.hardReset_inputs (s : State) : s.hardReset.inputs = s.inputs := rfl

/-- Hardware reset leaves the reset state of 10 R35, with the host's stream as it was. -/
theorem State.hardReset_eq (s : State) : s.hardReset = { State.resetWith s.cfg with inputs := s.inputs } := rfl

/-! ### `accept`, `illegal`, `withPayload`: everything they can answer -/

theorem State.accept_run {s : State} (h : s.mode = .run) (n : State) : s.accept n = .next n := by
  simp [State.accept, h]

theorem State.accept_faulted {s : State} (h : s.mode = .faulted) (n : State) :
    s.accept n = .next (s.respond Response.halted) := by
  simp [State.accept, h]

/-- The mode check always answers a next state: the command's own, or `Halted`. -/
theorem State.accept_cases {s n t : State} (h : s.accept n = .next t) :
    (s.mode = .run ∧ t = n) ∨ (s.mode = .faulted ∧ t = s.respond Response.halted) := by
  cases hm : s.mode with
  | run => rw [State.accept_run hm] at h; cases h; exact .inl ⟨rfl, rfl⟩
  | faulted => rw [State.accept_faulted hm] at h; cases h; exact .inr ⟨rfl, rfl⟩

theorem State.accept_ne_fault (s n : State) (r : Fault) : s.accept n ≠ .fault r := nomatch r

theorem State.accept_ne_refused (s n : State) (r : Refusal) : s.accept n ≠ .refused r := by
  unfold State.accept; split <;> simp

theorem withPayload_of_length {n : Arg} {din : List Byte} (h : din.length = n.toNat) (r : Result) :
    withPayload n din r = r := by
  simp [withPayload, h]

theorem withPayload_of_ne {n : Arg} {din : List Byte} (h : din.length ≠ n.toNat) (r : Result) :
    withPayload n din r = .refused .payloadMismatch := by
  simp [withPayload, h]

/-- A format P command answers a next state only for a payload of `ARG` bytes. -/
theorem withPayload_next {n : Arg} {din : List Byte} {r : Result} {t : State}
    (h : withPayload n din r = .next t) : din.length = n.toNat ∧ r = .next t := by
  unfold withPayload at h
  split at h
  · exact ⟨‹_›, h⟩
  · cases h

theorem State.fits_iff (s : State) (n : Nat) : s.fits n = true ↔ n ≤ s.cfg.capBits.toNat := by
  simp [State.fits]

theorem State.bitAt_eq_some {s : State} {i : Arg} {b : Bool} :
    s.bitAt i = some b ↔ s.br[i.toNat]? = some b := Iff.rfl

theorem State.bitAt_eq_none {s : State} {i : Arg} : s.bitAt i = none ↔ s.len ≤ i.toNat := by
  simp [State.bitAt, argNat, State.len]

end Sys2Proof.Machine

namespace Sys2Proof

/-- The upper bound of 00 R5 follows from the width and the multiple of 8. -/
theorem Config.legal_le {c : Config} (h : c.legal) : c.capBits.toNat ≤ 2 ^ 24 - 8 := by
  have hlt := c.capBits.isLt
  have := h.1
  omega

end Sys2Proof
end

