-- ==== Sys2Proof/Laws/Exec.lean ====
section
/-! SUPPORT. What a command can answer: one lemma for all commands, and the shared cases it is made of. -/

namespace Sys2Proof.Machine

/-- The five ways a command can end: `RST`; with status OK, the sequence as it was; with status OK and a new
sequence, in RUN mode; with a fault recorded under the command's own word, in RUN mode; with `Halted`. -/
inductive Ends (i : Instr) (s t : State) : Prop where
  | reset (hi : i = .rst) (ht : t = s.softReset.respond (Response.ok false 0#32))
  | read (r : Response) (hr : r.st = .ok) (hm : s.mode = .run ∨ ∃ k, i = .rdc k) (ht : t = s.respond r)
  | write (b : Bits) (r : Response) (hr : r.st = .ok) (hm : s.mode = .run) (ht : t = s.answer b r)
  | fault (c : Cause) (hm : s.mode = .run) (ht : t = s.raise c (encodeWord i))
  | halt (hm : s.mode = .faulted) (ht : t = s.respond Response.halted)

theorem Ends.of_accept {i : Instr} {s n t : State} (h : s.accept n = .next t) (hn : s.mode = .run → Ends i s n) :
    Ends i s t := by
  rcases State.accept_cases h with ⟨hm, rfl⟩ | ⟨hm, rfl⟩
  · exact hn hm
  · exact .halt hm rfl

/-- Every next state of `exec` is one of the five. -/
theorem exec_ends {i : Instr} {s t : State} (h : exec i s = .next t) : Ends i s t := by
  cases i with
  | clr => exact .of_accept h fun hm => .write _ _ rfl hm rfl
  | ldb n din =>
    obtain ⟨-, h⟩ := withPayload_next h
    refine .of_accept h fun hm => ?_
    split
    · exact .write _ _ rfl hm rfl
    · exact .fault _ hm rfl
  | get j =>
    refine .of_accept h fun hm => ?_
    split
    · exact .read _ rfl (.inl hm) rfl
    · exact .fault _ hm rfl
  | set j v =>
    refine .of_accept h fun hm => ?_
    split
    · exact .write _ _ rfl hm rfl
    · exact .fault _ hm rfl
  | slen n =>
    refine .of_accept h fun hm => ?_
    split
    · exact .write _ _ rfl hm rfl
    · exact .fault _ hm rfl
  | shl n => exact .of_accept h fun hm => .write _ _ rfl hm rfl
  | exp =>
    refine .of_accept h fun hm => ?_
    split
    · exact .read _ rfl (.inl hm) rfl
    · exact .fault _ hm rfl
  | whlen b =>
    refine .of_accept h fun hm => ?_
    split
    · exact .read _ rfl (.inl hm) rfl
    · exact .fault _ hm rfl
  | wval b =>
    refine .of_accept h fun hm => ?_
    split
    · exact .read _ rfl (.inl hm) rfl
    · exact .fault _ hm rfl
  | wcanon => exact .of_accept h fun hm => .read _ rfl (.inl hm) rfl
  | pad =>
    refine .of_accept h fun hm => ?_
    split
    · exact .read _ rfl (.inl hm) rfl
    · split
      · exact .write _ _ rfl hm rfl
      · exact .fault _ hm rfl
  | hchk =>
    refine .of_accept h fun hm => ?_
    split <;> exact .read _ rfl (.inl hm) rfl
  | tfind =>
    refine .of_accept h fun hm => ?_
    split <;> exact .read _ rfl (.inl hm) rfl
  | tstrip =>
    refine .of_accept h fun hm => ?_
    split
    · exact .write _ _ rfl hm rfl
    · exact .read _ rfl (.inl hm) rfl
  | xtr n din =>
    obtain ⟨-, h⟩ := withPayload_next h
    refine .of_accept h fun hm => ?_
    split
    · refine .write _ _ ?_ hm rfl
      unfold extract
      split
      · rfl
      · split <;> rfl
    · exact .fault _ hm rfl
  | rdc k =>
    simp only [exec, execRdc] at h
    split at h
    · cases h; exact .read _ rfl (.inr ⟨k, rfl⟩) rfl
    · exact .of_accept h fun hm => .fault _ hm rfl
  | rst =>
    cases h
    exact .reset rfl rfl

/-- The parameters are wired (70 R181), and the host's stream is not the command's. -/
theorem exec_cfg {i : Instr} {s t : State} (h : exec i s = .next t) : t.cfg = s.cfg := by
  rcases exec_ends h with ⟨-, rfl⟩ | ⟨-, -, -, rfl⟩ | ⟨-, -, -, -, rfl⟩ | ⟨-, -, rfl⟩ | ⟨-, rfl⟩ <;> rfl

theorem exec_inputs {i : Instr} {s t : State} (h : exec i s = .next t) : t.inputs = s.inputs := by
  rcases exec_ends h with ⟨-, rfl⟩ | ⟨-, -, -, rfl⟩ | ⟨-, -, -, -, rfl⟩ | ⟨-, -, rfl⟩ | ⟨-, rfl⟩ <;> rfl

end Sys2Proof.Machine
end

