-- ==== Sys2Proof/Laws/Meanings.lean ====
section
/-! SUPPORT. Each command's meaning as equations, one per case of its rule, and the one inversion lemma over all
commands (`exec_cases`): everything a command that answers a next state can have done. -/

namespace Sys2Proof.Machine

/-! ### Bit-Sequence Engine -/

theorem exec_clr {s : State} (hm : s.mode = .run) : exec .clr s = .next (s.answer [] (Response.ok false 0#32)) :=
  State.accept_run hm _

theorem exec_ldb_fits {s : State} {n : Arg} {din : List Byte} (hl : din.length = n.toNat) (hm : s.mode = .run)
    (hf : 8 * n.toNat ≤ s.cfg.capBits.toNat) :
    exec (.ldb n din) s = .next (s.answer (loadBits din) (Response.ok false (resOf (8 * n.toNat)))) := by
  show execLdb n din s = _
  rw [execLdb, withPayload_of_length hl, State.accept_run hm,
    if_pos (show s.fits (bitLength n) = true from (State.fits_iff _ _).2 hf)]
  rfl

theorem exec_ldb_over {s : State} {n : Arg} {din : List Byte} (hl : din.length = n.toNat) (hm : s.mode = .run)
    (hf : s.cfg.capBits.toNat < 8 * n.toNat) :
    exec (.ldb n din) s = .next (s.raise .capacityError (encodeWord (.ldb n din))) := by
  show execLdb n din s = _
  rw [execLdb, withPayload_of_length hl, State.accept_run hm, if_neg]
  rw [State.fits_iff, bitLength]
  omega

theorem exec_get_inside {s : State} {i : Arg} {b : Bool} (hm : s.mode = .run) (h : s.br[i.toNat]? = some b) :
    exec (.get i) s = .next (s.respond (Response.ok b (resOfBit b))) := by
  show execGet i s = _
  rw [execGet, State.accept_run hm, State.bitAt_eq_some.2 h]

theorem exec_get_outside {s : State} {i : Arg} (hm : s.mode = .run) (h : s.len ≤ i.toNat) :
    exec (.get i) s = .next (s.raise .indexError (encodeWord (.get i))) := by
  show execGet i s = _
  rw [execGet, State.accept_run hm, State.bitAt_eq_none.2 h]

theorem exec_set_inside {s : State} {i : Arg} {v : Bool} (hm : s.mode = .run) (h : i.toNat < s.len) :
    exec (.set i v) s = .next (s.answer (s.br.set i.toNat v) (Response.ok false 0#32)) := by
  show execSet i v s = _
  rw [execSet, State.accept_run hm, State.bitAt_eq_some.2 (List.getElem?_eq_getElem h)]
  rfl

theorem exec_set_outside {s : State} {i : Arg} {v : Bool} (hm : s.mode = .run) (h : s.len ≤ i.toNat) :
    exec (.set i v) s = .next (s.raise .indexError (encodeWord (.set i v))) := by
  show execSet i v s = _
  rw [execSet, State.accept_run hm, State.bitAt_eq_none.2 h]

theorem exec_slen_fits {s : State} {n : Arg} (hm : s.mode = .run) (hf : n.toNat ≤ s.cfg.capBits.toNat) :
    exec (.slen n) s = .next (s.answer (setLength n.toNat s.br) (Response.ok false (resOf n.toNat))) := by
  show execSlen n s = _
  rw [execSlen, State.accept_run hm, if_pos (show s.fits (argNat n) = true from (State.fits_iff _ _).2 hf)]
  rfl

theorem exec_slen_over {s : State} {n : Arg} (hm : s.mode = .run) (hf : s.cfg.capBits.toNat < n.toNat) :
    exec (.slen n) s = .next (s.raise .capacityError (encodeWord (.slen n))) := by
  show execSlen n s = _
  rw [execSlen, State.accept_run hm, if_neg]
  rw [State.fits_iff, argNat]
  omega

theorem exec_shl {s : State} {n : Arg} (hm : s.mode = .run) :
    exec (.shl n) s = .next (s.answer (shiftOut n.toNat s.br) (Response.ok false (resOf s.len))) :=
  State.accept_run hm _

theorem exec_exp_aligned {s : State} (hm : s.mode = .run) (h : s.len % 8 = 0) :
    exec .exp s = .next (s.respond (Response.bytes false (exportBytes s.br))) := by
  show execExp s = _
  rw [execExp, State.accept_run hm, if_pos h]

theorem exec_exp_unaligned {s : State} (hm : s.mode = .run) (h : s.len % 8 ≠ 0) :
    exec .exp s = .next (s.raise .invalidState (encodeWord .exp)) := by
  show execExp s = _
  rw [execExp, State.accept_run hm, if_neg h]

/-! ### Window Header Codec -/

theorem exec_whlen_some {s : State} {b : Byte} {l : CodeLength} (hm : s.mode = .run)
    (h : headerLength s.cfg.wbits4 b = some l) :
    exec (.whlen b) s = .next (s.respond (Response.ok false (resOf l.bits))) := by
  show execWhlen b s = _
  rw [execWhlen, State.accept_run hm, h]

theorem exec_whlen_none {s : State} {b : Byte} (hm : s.mode = .run) (h : headerLength s.cfg.wbits4 b = none) :
    exec (.whlen b) s = .next (s.raise .formatError (encodeWord (.whlen b))) := by
  show execWhlen b s = _
  rw [execWhlen, State.accept_run hm, h]

theorem exec_wval_some {s : State} {b : Byte} {w : Nat} (hm : s.mode = .run) (h : windowSize s.cfg.wbits4 b = some w) :
    exec (.wval b) s = .next (s.respond (Response.ok false (resOf w))) := by
  show execWval b s = _
  rw [execWval, State.accept_run hm, h]

theorem exec_wval_none {s : State} {b : Byte} (hm : s.mode = .run) (h : windowSize s.cfg.wbits4 b = none) :
    exec (.wval b) s = .next (s.raise .formatError (encodeWord (.wval b))) := by
  show execWval b s = _
  rw [execWval, State.accept_run hm, h]

theorem exec_wcanon {s : State} (hm : s.mode = .run) :
    exec .wcanon s = .next (s.respond (Response.ok false wcanonResult)) :=
  State.accept_run hm _

/-- `windowSize` fails exactly where `headerLength` does (41 R112). -/
theorem windowSize_eq_none (rule : Wbits4Rule) (b : Byte) : windowSize rule b = none ↔ headerLength rule b = none := by
  unfold windowSize
  split
  · simp [*]
  · simp [*]
  · simp [*]
  · split <;> simp [*]

/-! ### Meta-Block Framer -/

theorem exec_pad_aligned {s : State} (hm : s.mode = .run) (h : s.len % 8 = 0) :
    exec .pad s = .next (s.respond (Response.ok false (resOf s.len))) := by
  show execPad s = _
  rw [execPad, State.accept_run hm, if_pos h]

theorem exec_pad_fits {s : State} (hm : s.mode = .run) (h : s.len % 8 ≠ 0)
    (hf : ceil8 (s.len + 6) ≤ s.cfg.capBits.toNat) :
    exec .pad s = .next (s.answer (padBits s.br) (Response.ok true (resOf (ceil8 (s.len + 6))))) := by
  show execPad s = _
  rw [execPad, State.accept_run hm, if_neg h, if_pos ((State.fits_iff _ _).2 hf)]

theorem exec_pad_over {s : State} (hm : s.mode = .run) (h : s.len % 8 ≠ 0)
    (hf : s.cfg.capBits.toNat < ceil8 (s.len + 6)) :
    exec .pad s = .next (s.raise .capacityError (encodeWord .pad)) := by
  show execPad s = _
  rw [execPad, State.accept_run hm, if_neg h, if_neg]
  rw [State.fits_iff]
  omega

/-! ### Bare-Block Extractor -/

theorem exec_hchk_match {s : State} (hm : s.mode = .run) (h : headerCheck s.br = none) :
    exec .hchk s = .next (s.respond (Response.ok true 0#32)) := by
  show execHchk s = _
  rw [execHchk, State.accept_run hm, h]

theorem exec_hchk_negative {s : State} {r : NotFound} (hm : s.mode = .run) (h : headerCheck s.br = some r) :
    exec .hchk s = .next (s.respond (Response.notFound r)) := by
  show execHchk s = _
  rw [execHchk, State.accept_run hm, h]

theorem exec_tfind_found {s : State} {l : Nat} (hm : s.mode = .run) (h : tscan s.br = .ok l) :
    exec .tfind s = .next (s.respond (Response.ok true (resOf l))) := by
  show execTfind s = _
  rw [execTfind, State.accept_run hm, h]

theorem exec_tfind_negative {s : State} {r : NotFound} (hm : s.mode = .run) (h : tscan s.br = .error r) :
    exec .tfind s = .next (s.respond (Response.notFound r)) := by
  show execTfind s = _
  rw [execTfind, State.accept_run hm, h]

theorem exec_tstrip_found {s : State} {l : Nat} (hm : s.mode = .run) (h : tscan s.br = .ok l) :
    exec .tstrip s = .next (s.answer (stripAt l s.br) (Response.ok true (resOf l))) := by
  show execTstrip s = _
  rw [execTstrip, State.accept_run hm, h]

theorem exec_tstrip_negative {s : State} {r : NotFound} (hm : s.mode = .run) (h : tscan s.br = .error r) :
    exec .tstrip s = .next (s.respond (Response.notFound r)) := by
  show execTstrip s = _
  rw [execTstrip, State.accept_run hm, h]

theorem exec_xtr_fits {s : State} {n : Arg} {din : List Byte} (hl : din.length = n.toNat) (hm : s.mode = .run)
    (hf : 8 * n.toNat ≤ s.cfg.capBits.toNat) :
    exec (.xtr n din) s = .next (s.answer (extract (loadBits din)).1 (extract (loadBits din)).2) := by
  show execXtr n din s = _
  rw [execXtr, withPayload_of_length hl, State.accept_run hm,
    if_pos (show s.fits (bitLength n) = true from (State.fits_iff _ _).2 hf)]

theorem exec_xtr_over {s : State} {n : Arg} {din : List Byte} (hl : din.length = n.toNat) (hm : s.mode = .run)
    (hf : s.cfg.capBits.toNat < 8 * n.toNat) :
    exec (.xtr n din) s = .next (s.raise .capacityError (encodeWord (.xtr n din))) := by
  show execXtr n din s = _
  rw [execXtr, withPayload_of_length hl, State.accept_run hm, if_neg]
  rw [State.fits_iff, bitLength]
  omega

/-- The three ways an extraction that fits ends (43 R131, R132). -/
theorem extract_cases (b : Bits) :
    (∃ r, headerCheck b = some r ∧ extract b = (b, Response.notFound r)) ∨
    (∃ r, headerCheck b = none ∧ tscan (shiftOut 16 b) = .error r ∧
      extract b = (shiftOut 16 b, Response.notFound r)) ∨
    ∃ l, headerCheck b = none ∧ tscan (shiftOut 16 b) = .ok l ∧
      extract b = (padBits (stripAt l (shiftOut 16 b)),
        Response.bytes true (exportBytes (padBits (stripAt l (shiftOut 16 b))))) := by
  unfold extract
  cases headerCheck b with
  | some r => exact .inl ⟨r, rfl, rfl⟩
  | none =>
    cases tscan (shiftOut 16 b) with
    | error r => exact .inr (.inl ⟨r, rfl, rfl, rfl⟩)
    | ok l => exact .inr (.inr ⟨l, rfl, rfl, rfl⟩)

/-- The terminator found after the header shift lies in the shifted stream (43 R133). -/
theorem tscan_shiftOut_ok {n l : Nat} {b : Bits} (h : tscan (shiftOut n b) = .ok l) : l + n < b.length := by
  have h1 := (tscan_ok h).2.2.1
  rw [shiftOut_getElem?] at h1
  split at h1
  · split at h1
    · assumption
    · simp at h1
  · cases h1

/-! ### System commands -/

theorem controlReg_none {s : State} {k : BitVec 4} (h : 9 ≤ k.toNat) : s.controlReg k = none := by
  have := k.isLt
  unfold State.controlReg
  split <;> first | omega | rfl

theorem controlReg_some {s : State} {k : BitVec 4} (h : k.toNat ≤ 8) : ∃ v, s.controlReg k = some v := by
  obtain h | h | h | h | h | h | h | h | h : k.toNat = 0 ∨ k.toNat = 1 ∨ k.toNat = 2 ∨ k.toNat = 3 ∨ k.toNat = 4 ∨
      k.toNat = 5 ∨ k.toNat = 6 ∨ k.toNat = 7 ∨ k.toNat = 8 := by omega
  all_goals rw [State.controlReg, h]; exact ⟨_, rfl⟩

theorem exec_rdc_legal {s : State} {k : BitVec 4} {v : Word} (h : s.controlReg k = some v) :
    exec (.rdc k) s = .next (s.respond (Response.ok false v)) := by
  show execRdc k s = _
  rw [execRdc, h]

theorem exec_rdc_illegal {s : State} {k : BitVec 4} (h : 9 ≤ k.toNat) :
    exec (.rdc k) s = s.illegal (encodeWord (.rdc k)) := by
  show execRdc k s = _
  rw [execRdc, controlReg_none h]

/-! ### Everything a command can do -/

/-- `InRun i s t`: what the command `i` leaves in RUN mode, by the case of its rule; `RST` and the legal `RDC`, which
do not look at the mode, are in `Did`. -/
inductive InRun : Instr → State → State → Prop where
  | clr (s) : InRun .clr s (s.answer [] (Response.ok false 0#32))
  | ldb (s n din) (hl : din.length = n.toNat) (h : 8 * n.toNat ≤ s.cfg.capBits.toNat) :
      InRun (.ldb n din) s (s.answer (loadBits din) (Response.ok false (resOf (8 * n.toNat))))
  | ldbOver (s n din) (hl : din.length = n.toNat) (h : s.cfg.capBits.toNat < 8 * n.toNat) :
      InRun (.ldb n din) s (s.raise .capacityError (encodeWord (.ldb n din)))
  | get (s i b) (h : s.br[i.toNat]? = some b) : InRun (.get i) s (s.respond (Response.ok b (resOfBit b)))
  | getOutside (s i) (h : s.len ≤ i.toNat) : InRun (.get i) s (s.raise .indexError (encodeWord (.get i)))
  | set (s i v) (h : i.toNat < s.len) :
      InRun (.set i v) s (s.answer (s.br.set i.toNat v) (Response.ok false 0#32))
  | setOutside (s i v) (h : s.len ≤ i.toNat) : InRun (.set i v) s (s.raise .indexError (encodeWord (.set i v)))
  | slen (s n) (h : n.toNat ≤ s.cfg.capBits.toNat) :
      InRun (.slen n) s (s.answer (setLength n.toNat s.br) (Response.ok false (resOf n.toNat)))
  | slenOver (s n) (h : s.cfg.capBits.toNat < n.toNat) :
      InRun (.slen n) s (s.raise .capacityError (encodeWord (.slen n)))
  | shl (s n) : InRun (.shl n) s (s.answer (shiftOut n.toNat s.br) (Response.ok false (resOf s.len)))
  | exp (s) (h : s.len % 8 = 0) : InRun .exp s (s.respond (Response.bytes false (exportBytes s.br)))
  | expUnaligned (s) (h : s.len % 8 ≠ 0) : InRun .exp s (s.raise .invalidState (encodeWord .exp))
  | whlen (s b l) (h : headerLength s.cfg.wbits4 b = some l) :
      InRun (.whlen b) s (s.respond (Response.ok false (resOf l.bits)))
  | whlenBad (s b) (h : headerLength s.cfg.wbits4 b = none) :
      InRun (.whlen b) s (s.raise .formatError (encodeWord (.whlen b)))
  | wval (s b w) (h : windowSize s.cfg.wbits4 b = some w) :
      InRun (.wval b) s (s.respond (Response.ok false (resOf w)))
  | wvalBad (s b) (h : windowSize s.cfg.wbits4 b = none) :
      InRun (.wval b) s (s.raise .formatError (encodeWord (.wval b)))
  | wcanon (s) : InRun .wcanon s (s.respond (Response.ok false wcanonResult))
  | padAligned (s) (h : s.len % 8 = 0) : InRun .pad s (s.respond (Response.ok false (resOf s.len)))
  | pad (s) (h : s.len % 8 ≠ 0) (hf : ceil8 (s.len + 6) ≤ s.cfg.capBits.toNat) :
      InRun .pad s (s.answer (padBits s.br) (Response.ok true (resOf (ceil8 (s.len + 6)))))
  | padOver (s) (h : s.len % 8 ≠ 0) (hf : s.cfg.capBits.toNat < ceil8 (s.len + 6)) :
      InRun .pad s (s.raise .capacityError (encodeWord .pad))
  | hchk (s) (h : headerCheck s.br = none) : InRun .hchk s (s.respond (Response.ok true 0#32))
  | hchkNot (s r) (h : headerCheck s.br = some r) : InRun .hchk s (s.respond (Response.notFound r))
  | tfind (s l) (h : tscan s.br = .ok l) : InRun .tfind s (s.respond (Response.ok true (resOf l)))
  | tfindNot (s r) (h : tscan s.br = .error r) : InRun .tfind s (s.respond (Response.notFound r))
  | tstrip (s l) (h : tscan s.br = .ok l) :
      InRun .tstrip s (s.answer (stripAt l s.br) (Response.ok true (resOf l)))
  | tstripNot (s r) (h : tscan s.br = .error r) : InRun .tstrip s (s.respond (Response.notFound r))
  | xtr (s n din) (hl : din.length = n.toNat) (h : 8 * n.toNat ≤ s.cfg.capBits.toNat) :
      InRun (.xtr n din) s (s.answer (extract (loadBits din)).1 (extract (loadBits din)).2)
  | xtrOver (s n din) (hl : din.length = n.toNat) (h : s.cfg.capBits.toNat < 8 * n.toNat) :
      InRun (.xtr n din) s (s.raise .capacityError (encodeWord (.xtr n din)))
  | rdcIllegal (s k) (h : 9 ≤ k.toNat) : InRun (.rdc k) s (s.raise .illegalCommand (encodeWord (.rdc k)))

/-- What a command that answers a next state has done. -/
inductive Did (i : Instr) (s t : State) : Prop where
  | inRun (hm : s.mode = .run) (h : InRun i s t)
  | rdc (k : BitVec 4) (v : Word) (hi : i = .rdc k) (hk : k.toNat ≤ 8) (h : s.controlReg k = some v)
      (ht : t = s.respond (Response.ok false v))
  | rst (hi : i = .rst) (ht : t = s.softReset.respond (Response.ok false 0#32))
  | halted (hm : s.mode = .faulted) (ht : t = s.respond Response.halted)

theorem Did.of_accept {i : Instr} {s n t : State} (h : s.accept n = .next t) (hr : InRun i s n) : Did i s t := by
  rcases State.accept_cases h with ⟨hm, rfl⟩ | ⟨hm, rfl⟩
  · exact .inRun hm hr
  · exact .halted hm rfl

theorem State.not_fits {s : State} {n : Nat} (h : ¬ s.fits n = true) : s.cfg.capBits.toNat < n := by
  rw [State.fits_iff] at h
  omega

/-- Everything a command can do: the inversion of `exec`. -/
theorem exec_cases {i : Instr} {s t : State} (h : exec i s = .next t) : Did i s t := by
  cases i with
  | clr => exact .of_accept h (.clr s)
  | ldb n din =>
    obtain ⟨hl, h⟩ := withPayload_next h
    refine .of_accept h ?_
    split
    · exact .ldb _ _ _ hl ((State.fits_iff _ _).1 ‹_›)
    · exact .ldbOver _ _ _ hl (State.not_fits ‹_›)
  | get j =>
    refine .of_accept h ?_
    split
    · exact .get _ _ _ (State.bitAt_eq_some.1 ‹_›)
    · exact .getOutside _ _ (State.bitAt_eq_none.1 ‹_›)
  | set j v =>
    refine .of_accept h ?_
    split
    · exact .set _ _ _ (List.getElem?_eq_some_iff.1 (State.bitAt_eq_some.1 ‹_›)).1
    · exact .setOutside _ _ _ (State.bitAt_eq_none.1 ‹_›)
  | slen n =>
    refine .of_accept h ?_
    split
    · exact .slen _ _ ((State.fits_iff _ _).1 ‹_›)
    · exact .slenOver _ _ (State.not_fits ‹_›)
  | shl n => exact .of_accept h (.shl _ _)
  | exp =>
    refine .of_accept h ?_
    split
    · exact .exp _ ‹_›
    · exact .expUnaligned _ ‹_›
  | whlen b =>
    refine .of_accept h ?_
    split
    · exact .whlen _ _ _ ‹_›
    · exact .whlenBad _ _ ‹_›
  | wval b =>
    refine .of_accept h ?_
    split
    · exact .wval _ _ _ ‹_›
    · exact .wvalBad _ _ ‹_›
  | wcanon => exact .of_accept h (.wcanon _)
  | pad =>
    refine .of_accept h ?_
    split
    · exact .padAligned _ ‹_›
    · split
      · exact .pad _ ‹_› ((State.fits_iff _ _).1 ‹_›)
      · exact .padOver _ ‹_› (State.not_fits ‹_›)
  | hchk =>
    refine .of_accept h ?_
    split
    · exact .hchk _ ‹_›
    · exact .hchkNot _ _ ‹_›
  | tfind =>
    refine .of_accept h ?_
    split
    · exact .tfind _ _ ‹_›
    · exact .tfindNot _ _ ‹_›
  | tstrip =>
    refine .of_accept h ?_
    split
    · exact .tstrip _ _ ‹_›
    · exact .tstripNot _ _ ‹_›
  | xtr n din =>
    obtain ⟨hl, h⟩ := withPayload_next h
    refine .of_accept h ?_
    split
    · exact .xtr _ _ _ hl ((State.fits_iff _ _).1 ‹_›)
    · exact .xtrOver _ _ _ hl (State.not_fits ‹_›)
  | rdc k =>
    by_cases hk : 9 ≤ k.toNat
    · rw [exec_rdc_illegal hk] at h
      exact .of_accept h (.rdcIllegal _ _ hk)
    · obtain ⟨v, hv⟩ := controlReg_some (s := s) (k := k) (by omega)
      rw [exec_rdc_legal hv] at h
      cases h
      exact .rdc k v rfl (by omega) hv rfl
  | rst => cases h; exact .rst rfl rfl

end Sys2Proof.Machine
end

