-- ==== Sys2Proof/Laws/PerInstr.lean ====
section
/-! SUPPORT. For every command, said of its syntax: its word selects its own row of the opcode table (30 R69). -/

namespace Sys2Proof.Laws.OwnRow

/-- The command's word selects the row of the command's own mnemonic. -/
def Statement (i : Instr) : Prop := ∃ r ∈ opcodeTable, r.mnemonic = i.mnemonic ∧ r.selects (encodeWord i) = true

theorem clr : Statement .clr := by unfold Statement; decide

/-- A row that fixes the opcode byte only selects every word with that byte. -/
theorem selects_of_opcode (m : Mnemonic) (f : Format) (o : BitVec 8) (a : Arg) :
    OpcodeRow.selects ⟨m, f, o ++ 0#24, 0xFF#8 ++ 0#24⟩ (o ++ a) = true := by
  simp only [OpcodeRow.selects, append_and_append, beq_iff_eq]
  rw [BitVec.and_zero, show (0xFF#8 : BitVec 8) = BitVec.allOnes 8 from rfl, BitVec.and_allOnes]

theorem ldb (n : Arg) (din : List Byte) : Statement (.ldb n din) :=
  ⟨⟨.ldb, .p, 0x02000000#32, 0xFF000000#32⟩, by decide, rfl, selects_of_opcode _ _ 0x02#8 n⟩

theorem get (i : Arg) : Statement (.get i) :=
  ⟨⟨.get, .a, 0x03000000#32, 0xFF000000#32⟩, by decide, rfl, selects_of_opcode _ _ 0x03#8 i⟩

theorem set (i : Arg) (v : Bool) : Statement (.set i v) := by
  refine ⟨⟨.set, .s, 0x04000000#32, 0xFE000000#32⟩, by decide, rfl, ?_⟩
  have h (o : BitVec 8) (ho : o &&& 0xFE#8 = 0x04#8) :
      OpcodeRow.selects ⟨.set, .s, 0x04#8 ++ 0#24, 0xFE#8 ++ 0#24⟩ (o ++ i) = true := by
    simp only [OpcodeRow.selects, append_and_append, beq_iff_eq, ho]
    rw [BitVec.and_zero]
  cases v
  · exact h 0x04#8 rfl
  · exact h 0x05#8 rfl

theorem slen (n : Arg) : Statement (.slen n) :=
  ⟨⟨.slen, .a, 0x06000000#32, 0xFF000000#32⟩, by decide, rfl, selects_of_opcode _ _ 0x06#8 n⟩

theorem shl (n : Arg) : Statement (.shl n) :=
  ⟨⟨.shl, .a, 0x07000000#32, 0xFF000000#32⟩, by decide, rfl, selects_of_opcode _ _ 0x07#8 n⟩

theorem exp : Statement .exp := by unfold Statement; decide

/-- A row that fixes all but an operand byte selects every word with the fixed part. -/
theorem selects_of_byte (m : Mnemonic) (f : Format) (o : BitVec 8) (b : Byte) :
    OpcodeRow.selects ⟨m, f, o ++ 0#24, 0xFF#8 ++ (0xFFFF#16 ++ 0#8 : Arg)⟩ (o ++ (0#16 ++ b : Arg)) = true := by
  have h0 : ((0#16 ++ b : Arg) &&& (0xFFFF#16 ++ 0#8)) = 0#24 := by
    rw [BitVec.and_append, BitVec.and_zero, BitVec.zero_and]; rfl
  have h := append_and_append o 0xFF#8 (0#16 ++ b) (0xFFFF#16 ++ 0#8)
  rw [h0, show (0xFF#8 : BitVec 8) = BitVec.allOnes 8 from rfl, BitVec.and_allOnes] at h
  exact beq_iff_eq.2 h

theorem whlen (b : Byte) : Statement (.whlen b) :=
  ⟨⟨.whlen, .b, 0x10000000#32, 0xFFFFFF00#32⟩, by decide, rfl, selects_of_byte _ _ 0x10#8 b⟩

theorem wval (b : Byte) : Statement (.wval b) :=
  ⟨⟨.wval, .b, 0x11000000#32, 0xFFFFFF00#32⟩, by decide, rfl, selects_of_byte _ _ 0x11#8 b⟩

theorem wcanon : Statement .wcanon := by unfold Statement; decide

theorem pad : Statement .pad := by unfold Statement; decide

theorem hchk : Statement .hchk := by unfold Statement; decide

theorem tfind : Statement .tfind := by unfold Statement; decide

theorem tstrip : Statement .tstrip := by unfold Statement; decide

theorem xtr (n : Arg) (din : List Byte) : Statement (.xtr n din) :=
  ⟨⟨.xtr, .p, 0x33000000#32, 0xFF000000#32⟩, by decide, rfl, selects_of_opcode _ _ 0x33#8 n⟩

theorem rdc (k : BitVec 4) : Statement (.rdc k) := by
  refine ⟨⟨.rdc, .r, 0x40000000#32, 0xFFFFFFF0#32⟩, by decide, rfl, ?_⟩
  revert k
  decide

theorem rst : Statement .rst := by unfold Statement; decide

end Sys2Proof.Laws.OwnRow
end

