-- ==== Sys2Proof/Laws/Step.lean ====
section
/-! SUPPORT. What one step can do, once for all statements about `step`, and what the shared operations leave in the
terms of Safety.lean. -/

namespace Sys2Proof.Machine

/-- A word of no row: the fault in RUN mode, `Halted` in FAULTED mode. -/
theorem illegal_cases {s t : State} {w : Word} (h : s.illegal w = .next t) :
    (s.mode = .run ∧ t = s.raise .illegalCommand w) ∨ (s.mode = .faulted ∧ t = s.respond Response.halted) :=
  State.accept_cases h

/-- The four ways a step answers a next state: the block waits, hardware reset, a command of the table, a word of no
row. -/
theorem step_cases {s t : State} (h : step s = .next t) :
    (s.inputs = [] ∧ t = s) ∨
    (∃ rest, s.inputs = .reset :: rest ∧ t = State.hardReset { s with inputs := rest }) ∨
    (∃ c rest i, s.inputs = .command c :: rest ∧ decode c = .ok i ∧ exec i { s with inputs := rest } = .next t) ∨
    (∃ c rest, s.inputs = .command c :: rest ∧ decode c = .error .illegalCommand ∧
      State.illegal { s with inputs := rest } c.word = .next t) := by
  unfold step takeInput at h
  split at h
  · cases h
    exact .inl ⟨‹_›, rfl⟩
  · cases h
    exact .inr (.inl ⟨_, ‹_›, rfl⟩)
  · rename_i c rest hi
    unfold issue at h
    split at h
    · exact .inr (.inr (.inl ⟨c, rest, _, hi, ‹_›, h⟩))
    · exact .inr (.inr (.inr ⟨c, rest, hi, ‹_›, h⟩))
    · cases h

/-- `raise` leaves what a fault leaves. -/
theorem State.raise_faultedFrom (s : State) (c : Cause) (w : Word) : s.FaultedFrom (s.raise c w) c w :=
  ⟨rfl, rfl, rfl, rfl, rfl, rfl, rfl⟩

/-- `answer` changes the sequence and the response only. -/
theorem State.answer_sameControl (s : State) (b : Bits) (r : Response) : s.SameControl (s.answer b r) :=
  ⟨rfl, rfl, rfl, rfl, rfl⟩

/-- `respond` with a response written out. -/
theorem State.respond_eq_answered (s : State) (st : Status) (f : Bool) (nx : Option NotFound) (res : Word)
    (dout : List Byte) : s.respond ⟨st, f, nx, res, dout⟩ = s.answered st f nx res dout := rfl

end Sys2Proof.Machine
end

