-- ==== Sys2Proof/Machine/Assembler.lean ====
section
/-! DEFINITION. The host's assembler: pseudo-instructions, operand forms, payload braces (spec 30 R82 to R84).
It produces commands; no meaning depends on it. -/

namespace Sys2Proof.Machine

/-! ### Pseudo-instructions (30 R84) -/

/-- The eight pseudo-instructions. -/
inductive Pseudo where
  | set0 (i : Arg)
  | set1 (i : Arg)
  | trunc (n : Arg)
  | rdlen
  | rdmode
  | rdcause
  | ldhdr
  | ldterm
deriving DecidableEq, Repr

/-- Their expansions (30 R84). -/
def Pseudo.expand : Pseudo → Instr
  | .set0 i => .set i false
  | .set1 i => .set i true
  | .trunc n => .slen n
  | .rdlen => .rdc 0#4
  | .rdmode => .rdc 1#4
  | .rdcause => .rdc 2#4
  | .ldhdr => .ldb 2#24 [0x6B#8, 0x00#8]
  | .ldterm => .ldb 1#24 [0x03#8]

/-! ### Text -/

/-- A space or a tab. -/
def isBlank (c : Char) : Bool := c == ' ' || c == '\t'

/-- The text without blanks at either end. -/
def trimBlanks (t : List Char) : List Char := ((t.dropWhile isBlank).reverse.dropWhile isBlank).reverse

/-- The pieces between the characters that satisfy `p`. -/
def piecesAt (p : Char → Bool) : List Char → List (List Char)
  | [] => [[]]
  | c :: cs =>
    if p c then [] :: piecesAt p cs
    else
      match piecesAt p cs with
      | [] => [[c]]
      | w :: ws => (c :: w) :: ws

/-- The value of a digit in a base up to 16; either case of a hexadecimal letter (log entry 10). -/
def digitOf (base : Nat) (c : Char) : Option Nat :=
  let v :=
    if 48 ≤ c.toNat ∧ c.toNat ≤ 57 then c.toNat - 48
    else if 65 ≤ c.toNat ∧ c.toNat ≤ 70 then c.toNat - 55
    else if 97 ≤ c.toNat ∧ c.toNat ≤ 102 then c.toNat - 87
    else 16
  if v < base then some v else none

/-- Digits, most significant first, `acc` being the value read so far. -/
def digitsFrom (base : Nat) (acc : Nat) : List Char → Option Nat
  | [] => some acc
  | c :: cs =>
    match digitOf base c with
    | some d => digitsFrom base (acc * base + d) cs
    | none => none

/-- At least one digit. -/
def digitsOf (base : Nat) : List Char → Option Nat
  | [] => none
  | c :: cs => digitsFrom base 0 (c :: cs)

/-- A number: decimal, hexadecimal with `0x`, binary with `0b` (30 R82). -/
def numberOf : List Char → Option Nat
  | '0' :: 'x' :: ds => digitsOf 16 ds
  | '0' :: 'b' :: ds => digitsOf 2 ds
  | ds => digitsOf 10 ds

/-- A number that fits a field of `w` bits. -/
def fieldOf (w : Nat) (t : List Char) : Option (BitVec w) :=
  match numberOf t with
  | some n => if n < 2 ^ w then some (BitVec.ofNat w n) else none
  | none => none

/-- A payload byte: two hexadecimal digits (30 R83). -/
def payloadByteOf : List Char → Option Byte
  | [h, l] =>
    match digitOf 16 h, digitOf 16 l with
    | some a, some b => some (BitVec.ofNat 8 (16 * a + b))
    | _, _ => none
  | _ => none

/-- All the bytes, or none. -/
def payloadBytesOf : List (List Char) → Option (List Byte)
  | [] => some []
  | w :: ws =>
    match payloadByteOf w, payloadBytesOf ws with
    | some b, some bs => some (b :: bs)
    | _, _ => none

/-- A payload in braces, first byte first (30 R83). The braces are characters 123 and 125. -/
def payloadTextOf : List Char → Option (List Byte)
  | [] => none
  | c :: cs =>
    if c.toNat = 123 ∧ (cs.getLastD ' ').toNat = 125 then
      payloadBytesOf ((piecesAt isBlank cs.dropLast).filter fun w => !w.isEmpty)
    else none

/-- A register operand: a number, or one of the nine names (30 R82, 10 R26). -/
def registerOf (t : List Char) : Option (BitVec 4) :=
  if t = "LEN".toList then some 0#4
  else if t = "MODE".toList then some 1#4
  else if t = "FCAUSE".toList then some 2#4
  else if t = "FCMD".toList then some 3#4
  else if t = "CAP".toList then some 4#4
  else if t = "CHDR".toList then some 5#4
  else if t = "CHDRLEN".toList then some 6#4
  else if t = "TERM".toList then some 7#4
  else if t = "PADCTL".toList then some 8#4
  else fieldOf 4 t

/-- Format N and the pseudo-instructions without operand: no operand text. -/
def plainOf (i : Instr) (ops : List (List Char)) : Option Instr :=
  match ops with
  | [] => some i
  | _ => none

/-- One 24-bit operand. -/
def argOperandOf (f : Arg → Instr) (ops : List (List Char)) : Option Instr :=
  match ops with
  | [t] => (fieldOf 24 t).map f
  | _ => none

/-- One byte operand. -/
def byteOperandOf (f : Byte → Instr) (ops : List (List Char)) : Option Instr :=
  match ops with
  | [t] => (fieldOf 8 t).map f
  | _ => none

/-- An index and a bit. -/
def setOperandsOf (ops : List (List Char)) : Option Instr :=
  match ops with
  | [t, v] =>
    match fieldOf 24 t, fieldOf 1 v with
    | some i, some b => some (.set i (b == 1#1))
    | _, _ => none
  | _ => none

/-- A register operand. -/
def registerOperandOf (ops : List (List Char)) : Option Instr :=
  match ops with
  | [t] => (registerOf t).map .rdc
  | _ => none

/-- A payload; `ARG` is its byte count (30 R83). -/
def payloadOperandOf (f : Arg → List Byte → Instr) (ops : List (List Char)) : Option Instr :=
  match ops with
  | [t] =>
    match payloadTextOf t with
    | some d => if d.length < 2 ^ 24 then some (f (BitVec.ofNat 24 d.length) d) else none
    | none => none
  | _ => none

/-- A mnemonic and its operands (30 R82 to R84). -/
def mnemonicOf (m : List Char) (ops : List (List Char)) : Option Instr :=
  if m = "CLR".toList then plainOf .clr ops
  else if m = "LDB".toList then payloadOperandOf .ldb ops
  else if m = "GET".toList then argOperandOf .get ops
  else if m = "SET".toList then setOperandsOf ops
  else if m = "SLEN".toList then argOperandOf .slen ops
  else if m = "SHL".toList then argOperandOf .shl ops
  else if m = "EXP".toList then plainOf .exp ops
  else if m = "WHLEN".toList then byteOperandOf .whlen ops
  else if m = "WVAL".toList then byteOperandOf .wval ops
  else if m = "WCANON".toList then plainOf .wcanon ops
  else if m = "PAD".toList then plainOf .pad ops
  else if m = "HCHK".toList then plainOf .hchk ops
  else if m = "TFIND".toList then plainOf .tfind ops
  else if m = "TSTRIP".toList then plainOf .tstrip ops
  else if m = "XTR".toList then payloadOperandOf .xtr ops
  else if m = "RDC".toList then registerOperandOf ops
  else if m = "RST".toList then plainOf .rst ops
  else if m = "SET0".toList then argOperandOf (fun i => (Pseudo.set0 i).expand) ops
  else if m = "SET1".toList then argOperandOf (fun i => (Pseudo.set1 i).expand) ops
  else if m = "TRUNC".toList then argOperandOf (fun n => (Pseudo.trunc n).expand) ops
  else if m = "RDLEN".toList then plainOf Pseudo.rdlen.expand ops
  else if m = "RDMODE".toList then plainOf Pseudo.rdmode.expand ops
  else if m = "RDCAUSE".toList then plainOf Pseudo.rdcause.expand ops
  else if m = "LDHDR".toList then plainOf Pseudo.ldhdr.expand ops
  else if m = "LDTERM".toList then plainOf Pseudo.ldterm.expand ops
  else none

/-- What a line of assembler text is. -/
inductive AsmLine where
  /-- Blank, or only a comment. -/
  | empty
  | command (c : Command)
  | malformed
deriving DecidableEq, Repr

/-- One line: `MNEMONIC`, then operands separated by commas; a semicolon starts a comment (30 R82). -/
def assembleLine (line : List Char) : AsmLine :=
  let text := trimBlanks (line.takeWhile (· != ';'))
  let operands := trimBlanks (text.dropWhile fun c => !isBlank c)
  match text with
  | [] => .empty
  | _ =>
    match mnemonicOf (text.takeWhile fun c => !isBlank c)
        (match operands with
          | [] => []
          | _ => (piecesAt (· == ',') operands).map trimBlanks) with
    | some i => .command (encode i)
    | none => .malformed

end Sys2Proof.Machine
end

