-- ==== Sys2Proof/Tests/Slice0.lean ====
section
/-! SUPPORT. The model's own tests: ill-formed terms refused; words written out from spec 30 decoded; one step of each
command with the answer of spec 95; and, for every obligation with hypotheses, a state and operands that meet them. -/

namespace Sys2Proof.Tests

open Sys2Proof Sys2Proof.Machine

/-! ### Helpers -/

/-- A block in the reset state, with capacity `cap` and rule `DOC`, holding the sequence `br`. -/
def block (cap : BitVec 24) (br : Bits) : State := { State.resetWith ⟨cap, .doc⟩ with br := br }

/-- The block of spec 95 (`CAP_BITS = 65,536`, `DOC`), after `LDB` of the bytes. -/
def loaded (din : List Byte) : State := block 65536#24 (loadBits din)

/-- The same with the rule `RFC`. -/
def rfc : State := State.resetWith ⟨65536#24, .rfc⟩

/-- 95 L2.5: after the `EXP` fault on a sequence of length 5. -/
def faulted : State :=
  { block 65536#24 [true, false, true, false, false] with mode := .faulted, fcause := 2#4, fcmd := 0x08000000#32 }

/-- `n` one-bits (95 L2.3). -/
def ones (n : Nat) : Bits := List.replicate n true

def nextOf (r : Result) : Option State :=
  match r with
  | .next t => some t
  | .fault _ => none
  | .refused _ => none

/-- The state after the host issues one command. -/
def after (s : State) (w : Word) (din : List Byte) : Option State := nextOf (step (s.withCommand ⟨w, din⟩))

/-- The 40-bit record answered, as 95 writes it. -/
def answered (s : State) (w : Word) (din : List Byte) : Option (BitVec 40) :=
  match after s w din with
  | some t => t.rsp.map Response.record
  | none => none

/-- The bits left in the register. -/
def bitsAfter (s : State) (w : Word) (din : List Byte) : Option Bits := (after s w din).map State.br

/-- The output payload. -/
def output (s : State) (w : Word) (din : List Byte) : Option (List Byte) :=
  match after s w din with
  | some t => t.rsp.map Response.dout
  | none => none

/-- `MODE`, `FCAUSE`, `FCMD` after the command. -/
def recordAfter (s : State) (w : Word) (din : List Byte) : Option (Mode × BitVec 4 × Word) :=
  (after s w din).map fun t => (t.mode, t.fcause, t.fcmd)

/-! ### WellFormed: an ill-formed term for each check (30 R72) -/

theorem test_ldb_payload_too_short_is_ill_formed : (Instr.ldb 3#24 [0x6B#8, 0x00#8]).wf = false := by decide
theorem test_ldb_payload_too_long_is_ill_formed : (Instr.ldb 0#24 [0x6B#8]).wf = false := by decide
theorem test_xtr_payload_too_short_is_ill_formed : (Instr.xtr 3#24 [0x6B#8, 0x00#8]).wf = false := by decide
theorem test_xtr_payload_of_arg_bytes_is_well_formed : (Instr.xtr 3#24 [0x6B#8, 0x00#8, 0x03#8]).wf = true := by
  decide

/-! ### Decoding: every constructor, its word bit by bit from 30 R61, R68, R69 (opcode byte, operand field) -/

theorem test_decode_clr : decode ⟨0b00000001_000000000000000000000000#32, []⟩ = .ok .clr := by decide
theorem test_decode_ldb : decode ⟨0b00000010_000000000000000000000010#32, [0xFF#8, 0x01#8]⟩ =
    .ok (.ldb 2#24 [0xFF#8, 0x01#8]) := by decide
theorem test_decode_get : decode ⟨0b00000011_000000000000000000011000#32, []⟩ = .ok (.get 24#24) := by decide
theorem test_decode_set : decode ⟨0b0000010_1_000000000000000000000010#32, []⟩ = .ok (.set 2#24 true) ∧
    decode ⟨0b0000010_0_111111111111111111111111#32, []⟩ = .ok (.set 16777215#24 false) := by decide
theorem test_decode_slen : decode ⟨0b00000110_000000010000000000000001#32, []⟩ = .ok (.slen 65537#24) := by decide
theorem test_decode_shl : decode ⟨0b00000111_111111111111111111111111#32, []⟩ = .ok (.shl 16777215#24) := by decide
theorem test_decode_exp : decode ⟨0b00001000_000000000000000000000000#32, []⟩ = .ok .exp := by decide
theorem test_decode_whlen : decode ⟨0b00010000_0000000000000000_01101011#32, []⟩ = .ok (.whlen 0x6B#8) := by decide
theorem test_decode_wval : decode ⟨0b00010001_0000000000000000_10010001#32, []⟩ = .ok (.wval 0x91#8) := by decide
theorem test_decode_wcanon : decode ⟨0b00010010_000000000000000000000000#32, []⟩ = .ok .wcanon := by decide
theorem test_decode_pad : decode ⟨0b00100000_000000000000000000000000#32, []⟩ = .ok .pad := by decide
theorem test_decode_hchk : decode ⟨0b00110000_000000000000000000000000#32, []⟩ = .ok .hchk := by decide
theorem test_decode_tfind : decode ⟨0b00110001_000000000000000000000000#32, []⟩ = .ok .tfind := by decide
theorem test_decode_tstrip : decode ⟨0b00110010_000000000000000000000000#32, []⟩ = .ok .tstrip := by decide
theorem test_decode_xtr : decode ⟨0b00110011_000000000000000000000001#32, [0x6B#8]⟩ = .ok (.xtr 1#24 [0x6B#8]) := by
  decide
theorem test_decode_rdc : decode ⟨0b01000000_00000000000000000000_1000#32, []⟩ = .ok (.rdc 8#4) := by decide
theorem test_decode_rst : decode ⟨0b01111111_000000000000000000000000#32, []⟩ = .ok .rst := by decide

/-- The illegal words of 95 L2.5 that match no row. -/
theorem test_illegal_words : ([0x00000000, 0xFFFFFFFF, 0x01000001, 0x08000001, 0x09000000, 0x10000100, 0x1100016B,
    0x12000001, 0x13000000, 0x20000001, 0x30800000, 0x34000000, 0x40000010, 0x41000000, 0x7E000000, 0x7F000001,
    0x80000000].all fun w => decodeTableWord 32 w == none) = true := by decide

/-- The opcode table's numbering: `LDB` of two bytes, payload byte 0 at bits 39..32. -/
theorem test_decodeTableWord_ldb : decodeTableWord 48 0xA56B02000002 = some (.ldb 2#24 [0x6B#8, 0xA5#8]) := by decide

/-- The bits of the payload that the table does not give are zero. -/
theorem test_decodeTableWord_xtr : decodeTableWord 32 0x33000002 = some (.xtr 2#24 [0x00#8, 0x00#8]) := by decide

/-- The command put in front is the one the next step runs. -/
theorem test_withFetchWord : nextOf (step (State.reset.withFetchWord 32 0x12000000)) =
    some { State.reset with rsp := some ⟨.ok, false, none, 0x040B#32, []⟩ } := by decide

/-! ### One step of each command (95 L2) -/

theorem test_clr : bitsAfter (loaded [0x6B#8, 0x00#8, 0xA5#8]) 0x01000000#32 [] = some [] ∧
    answered (loaded [0x6B#8]) 0x01000000#32 [] = some 0x0000000000#40 := by decide

/-- 95 L2.1: bit 0 of a byte is its low bit. -/
theorem test_ldb : answered State.reset 0x02000003#32 [0x6B#8, 0x00#8, 0xA5#8] = some 0x0000000018#40 ∧
    bitsAfter State.reset 0x02000003#32 [0x6B#8, 0x00#8, 0xA5#8] =
      some [true, true, false, true, false, true, true, false, false, false, false, false, false, false, false, false,
        true, false, true, false, false, true, false, true] := by decide

/-- CapacityError keeps the old sequence (decision D4), here at `CAP_BITS = 16`. -/
theorem test_ldb_capacity : answered (block 16#24 [true]) 0x02000003#32 [0x6B#8, 0x00#8, 0xA5#8] = some 0x4000000000#40 ∧
    bitsAfter (block 16#24 [true]) 0x02000003#32 [0x6B#8, 0x00#8, 0xA5#8] = some [true] := by decide

theorem test_get : answered (loaded [0x6B#8, 0x00#8, 0xA5#8]) 0x03000017#32 [] = some 0x0800000001#40 ∧
    answered (loaded [0x6B#8, 0x00#8, 0xA5#8]) 0x03000002#32 [] = some 0x0000000000#40 := by decide

theorem test_get_index : answered (loaded [0x6B#8, 0x00#8, 0xA5#8]) 0x03000018#32 [] = some 0x3000000000#40 ∧
    recordAfter (loaded [0x6B#8, 0x00#8, 0xA5#8]) 0x03000018#32 [] = some (.faulted, 3#4, 0x03000018#32) := by decide

theorem test_set : bitsAfter (loaded [0x6B#8, 0x00#8, 0xA5#8]) 0x05000002#32 [] = some (loadBits [0x6F#8, 0x00#8, 0xA5#8]) ∧
    bitsAfter (loaded [0x6B#8, 0x00#8, 0xA5#8]) 0x04000000#32 [] = some (loadBits [0x6A#8, 0x00#8, 0xA5#8]) := by decide

theorem test_set_index : recordAfter (loaded [0x6B#8, 0x00#8, 0xA5#8]) 0x05000018#32 [] =
    some (.faulted, 3#4, 0x05000018#32) := by decide

/-- Dropped bits do not come back. -/
theorem test_slen : bitsAfter (block 65536#24 [true, true, true]) 0x06000008#32 [] = some (loadBits [0x07#8]) ∧
    answered (loaded [0xFF#8]) 0x06000003#32 [] = some 0x0000000003#40 := by decide

theorem test_slen_capacity : answered (loaded [0xFF#8]) 0x06010001#32 [] = some 0x4000000000#40 := by decide

theorem test_shl : bitsAfter (loaded [0x6B#8, 0x00#8, 0xA5#8]) 0x07000001#32 [] = some (loadBits [0x35#8, 0x80#8, 0x52#8]) ∧
    answered (loaded [0x6B#8, 0x00#8, 0xA5#8]) 0x07000001#32 [] = some 0x0000000018#40 := by decide

theorem test_shl_past_the_end : bitsAfter (loaded [0xFF#8]) 0x07FFFFFF#32 [] = some (loadBits [0x00#8]) := by decide

theorem test_exp : output (loaded [0xA5#8, 0x0D#8]) 0x08000000#32 [] = some [0xA5#8, 0x0D#8] ∧
    answered (loaded [0xA5#8, 0x0D#8]) 0x08000000#32 [] = some 0x0000000002#40 := by decide

theorem test_exp_unaligned : answered (block 65536#24 [true, false, true, false, false]) 0x08000000#32 [] =
    some 0x2000000000#40 := by decide

/-- 95 L2.2, under `DOC`. -/
theorem test_whlen : [0x00#8, 0x01#8, 0x11#8, 0x91#8, 0xF1#8, 0x03#8, 0x05#8, 0x59#8, 0x6B#8, 0xFF#8].map
      (headerLength .doc) =
    [some .one, some .seven, none, none, some .seven, some .four, none, none, some .four, some .four] ∧
    answered State.reset 0x10000005#32 [] = some 0x1000000000#40 ∧ answered rfc 0x10000005#32 [] = some 4#40 := by
  decide

/-- 95 L2.2, under `RFC`. -/
theorem test_wval : [0x00#8, 0x81#8, 0x11#8, 0x21#8, 0x71#8, 0x13#8, 0x05#8, 0x09#8, 0x0B#8, 0xFD#8, 0x0F#8].map
      (windowSize .rfc) =
    [some 16, some 17, none, some 10, some 15, some 18, some 19, some 21, some 22, some 23, some 24] ∧
    answered State.reset 0x1100006B#32 [] = some 0x0000000016#40 := by decide

/-- 95 L2.2: the totals over all 256 bytes. -/
theorem test_whlen_totals :
    let count (rule : Wbits4Rule) (l : Option CodeLength) : Nat :=
      ((List.range 16).map fun h =>
        ((List.range 16).filter fun n => headerLength rule (BitVec.ofNat 8 (16 * h + n)) == l).length).sum
    count .doc (some .one) = 128 ∧ count .doc (some .four) = 64 ∧ count .doc (some .seven) = 14 ∧ count .doc none = 50 ∧
      count .rfc (some .four) = 112 ∧ count .rfc none = 2 := by decide

theorem test_wcanon : answered rfc 0x12000000#32 [] = some 0x000000040B#40 := by decide

/-- 95 L2.3, residues 1 to 7. -/
theorem test_pad : [1, 2, 3, 4, 5, 6, 7].map (fun n => bitsAfter (block 65536#24 (ones n)) 0x20000000#32 []) =
    [[0x0D#8], [0x1B#8], [0x37#8, 0x00#8], [0x6F#8, 0x00#8], [0xDF#8, 0x00#8], [0xBF#8, 0x01#8], [0x7F#8, 0x03#8]].map
      (fun d => some (loadBits d)) ∧
    answered (block 65536#24 (ones 4)) 0x20000000#32 [] = some 0x0800000010#40 ∧
    answered (block 65536#24 (ones 8)) 0x20000000#32 [] = some 0x0000000008#40 := by decide

/-- Residue 2 fits and residue 3 does not (decision D25), here at `CAP_BITS = 16`. -/
theorem test_pad_capacity : answered (block 16#24 (ones 10)) 0x20000000#32 [] = some 0x0800000010#40 ∧
    answered (block 16#24 (ones 11)) 0x20000000#32 [] = some 0x4000000000#40 ∧
    recordAfter (block 16#24 (ones 11)) 0x20000000#32 [] = some (.faulted, 4#4, 0x20000000#32) := by decide

/-- 95 L2.4. -/
theorem test_hchk : [[], [0x6B#8], [0x6B#8, 0x00#8], [0x6B#8, 0x80#8, 0x03#8], [0xEB#8, 0x00#8, 0x03#8]].map
      (fun d => answered (loaded d) 0x30000000#32 []) =
    [some 0x0100000000#40, some 0x0100000000#40, some 0x0800000000#40, some 0x0200000000#40, some 0x0200000000#40] := by
  decide

/-- 95 L2.4. -/
theorem test_tfind : [[], [0x00#8], [0x01#8], [0x05#8], [0x80#8], [0x03#8], [0x06#8], [0xC0#8], [0xA5#8, 0x07#8, 0x00#8]].map
      (fun d => answered (loaded d) 0x31000000#32 []) =
    [some 0x0300000000#40, some 0x0300000000#40, some 0x0400000000#40, some 0x0400000000#40, some 0x0400000000#40,
      some 0x0800000001#40, some 0x0800000002#40, some 0x0800000007#40, some 0x080000000A#40] := by decide

theorem test_tstrip : bitsAfter (loaded [0xA5#8, 0x07#8]) 0x32000000#32 [] =
      some [true, false, true, false, false, true, false, true, true] ∧
    bitsAfter (loaded [0x05#8]) 0x32000000#32 [] = some (loadBits [0x05#8]) := by decide

/-- 95 L2.4: found, with the register left holding the bare block. -/
theorem test_xtr_found : output State.reset 0x33000004#32 [0x6B#8, 0x00#8, 0xA5#8, 0x07#8] = some [0xA5#8, 0x0D#8] ∧
    answered State.reset 0x33000004#32 [0x6B#8, 0x00#8, 0xA5#8, 0x07#8] = some 0x0800000002#40 ∧
    bitsAfter State.reset 0x33000004#32 [0x6B#8, 0x00#8, 0xA5#8, 0x07#8] = some (loadBits [0xA5#8, 0x0D#8]) ∧
    output State.reset 0x33000003#32 [0x6B#8, 0x00#8, 0xFF#8] = some [0xBF#8, 0x01#8] := by decide

/-- 95 L2.4: not found; the mismatch leaves the bytes unshifted, the others shifted. -/
theorem test_xtr_not_found : answered State.reset 0x33000003#32 [0x6B#8, 0x01#8, 0x03#8] = some 0x0200000000#40 ∧
    bitsAfter State.reset 0x33000003#32 [0x6B#8, 0x01#8, 0x03#8] = some (loadBits [0x6B#8, 0x01#8, 0x03#8]) ∧
    answered State.reset 0x33000003#32 [0x6B#8, 0x00#8, 0x05#8] = some 0x0400000000#40 ∧
    bitsAfter State.reset 0x33000003#32 [0x6B#8, 0x00#8, 0x05#8] = some (loadBits [0x05#8, 0x00#8, 0x00#8]) := by decide

/-- 95 L2.5: the control registers in the reset state. -/
theorem test_rdc : [0x40000000#32, 0x40000001#32, 0x40000004#32, 0x40000005#32, 0x40000006#32, 0x40000007#32,
      0x40000008#32, 0x40000009#32].map (fun w => answered State.reset w []) =
    [some 0#40, some 0#40, some 0x10000#40, some 0x6B#40, some 0x10#40, some 3#40, some 6#40, some 0x5000000000#40] := by
  decide

/-- 95 L2.5: in FAULTED mode. -/
theorem test_rdc_faulted : [0x40000000#32, 0x40000001#32, 0x40000002#32, 0x40000003#32, 0x40000009#32].map
      (fun w => answered faulted w []) =
    [some 5#40, some 1#40, some 2#40, some 0x08000000#40, some 0x6000000000#40] := by decide

theorem test_rst : after faulted 0x7F000000#32 [] =
      some { State.reset with rsp := some ⟨.ok, false, none, 0#32, []⟩ } ∧
    answered faulted 0x7F000001#32 [] = some 0x6000000000#40 := by decide

/-- 95 L2.5: everything else is refused in FAULTED mode, the payload consumed. -/
theorem test_faulted_refuses : answered faulted 0x03000000#32 [] = some 0x6000000000#40 ∧
    after faulted 0x02000002#32 [0xFF#8, 0xFF#8] = some { faulted with rsp := some ⟨.halted, false, none, 0#32, []⟩ } := by
  decide

/-- An illegal word raises IllegalCommand. -/
theorem test_illegal : answered State.reset 0x09000000#32 [] = some 0x5000000000#40 ∧
    recordAfter State.reset 0x09000000#32 [] = some (.faulted, 5#4, 0x09000000#32) := by decide

/-! ### The assembler (30 R82 to R84) -/

theorem test_assemble_pseudo : assembleLine "LDHDR ; the header".toList = .command ⟨0x02000002#32, [0x6B#8, 0x00#8]⟩ ∧
    assembleLine "TRUNC 0x10".toList = .command ⟨0x06000010#32, []⟩ := by decide
theorem test_assemble_set : assembleLine "SET 2, 1".toList = .command ⟨0x05000002#32, []⟩ := by decide
theorem test_assemble_rdc : assembleLine "RDC PADCTL".toList = .command ⟨0x40000008#32, []⟩ := by decide

/-- The payload braces are characters 123 and 125. -/
theorem test_assemble_payload : assembleLine ("XTR ".toList ++ [Char.ofNat 123] ++ "6B 00 a5".toList ++ [Char.ofNat 125]) =
      .command ⟨0x33000003#32, [0x6B#8, 0x00#8, 0xA5#8]⟩ ∧
    assembleLine ("LDB ".toList ++ [Char.ofNat 123, Char.ofNat 125]) = .command ⟨0x02000000#32, []⟩ := by decide

/-! ### Witnesses: the hypotheses of each obligation are met, each clause at the edge of its range -/

theorem witness_DecodeOfEncodeIsIdentity : (Instr.ldb 0#24 []).wf = true ∧ (Instr.xtr 2#24 [0xFF#8, 0x80#8]).wf = true ∧
    (Instr.set 16777215#24 true).wf = true ∧ (Instr.rdc 15#4).wf = true := by decide

theorem witness_EncodeOfDecodeIsIdentity : decode ⟨0x05FFFFFF#32, []⟩ = .ok (.set 16777215#24 true) ∧
    decode ⟨0x33000002#32, [0xFF#8, 0x80#8]⟩ = .ok (.xtr 2#24 [0xFF#8, 0x80#8]) := by decide

theorem witness_OpcodeTableDecidesTheCommand :
    (⟨.set, .s, 0x04000000#32, 0xFE000000#32⟩ ∈ opcodeTable ∧
      OpcodeRow.selects ⟨.set, .s, 0x04000000#32, 0xFE000000#32⟩ 0x05000001#32 = true) ∧
    decode ⟨0x05000001#32, []⟩ = .ok (.set 1#24 true) ∧
    (payloadLength 0x33000001#32 = 1 ∧ payloadLength 0x03000001#32 = 0) := by decide

theorem witness_IllegalWordsRaiseIllegalCommand : (State.reset.mode = .run ∧
      decode ⟨0x06000000#32 + 0x03000000#32, []⟩ = .error .illegalCommand) ∧
    9 ≤ (9#4).toNat ∧ 9 ≤ (15#4).toNat := by decide

theorem witness_PayloadLengthIsCheckedFirst : (faulted.withCommand ⟨0x02000002#32, [0x6B#8]⟩).inputs =
      .command ⟨0x02000002#32, [0x6B#8]⟩ :: [] ∧
    decode ⟨0x02000002#32, [0x6B#8]⟩ = .error .payloadMismatch ∧
    decode ⟨0x01000000#32, [0x6B#8]⟩ = .error .payloadMismatch := by decide

theorem witness_StepExecutesTheDecodedCommand : (State.reset.withCommand ⟨0x02000001#32, [0x6B#8]⟩).inputs =
      .command ⟨0x02000001#32, [0x6B#8]⟩ :: [] ∧ decode ⟨0x02000001#32, [0x6B#8]⟩ = .ok (.ldb 1#24 [0x6B#8]) := by decide

/-- A FAULTED block and a `GET`; a RUN block and an illegal word, `RDC 9`, `RDC 15`; a command that completes. -/
theorem witness_CommonChecksInOrder :
    (faulted.mode = .faulted ∧ (∀ k : BitVec 4, k.toNat ≤ 8 → 0x40000009#32 ≠ 0x40000000#32 ||| k.setWidth 32) ∧
      0x40000009#32 ≠ 0x7F000000#32) ∧
    (State.reset.mode = .run ∧ (∀ r ∈ opcodeTable, r.selects 0x7F000001#32 = false) ∧
      (0x40000009#32 = 0x40000000#32 ||| (9#4).setWidth 32) ∧ 0x4000000F#32 = 0x40000000#32 ||| (15#4).setWidth 32) ∧
    (after State.reset 0x12000000#32 []).map State.rsp = some (some ⟨.ok, false, none, 0x040B#32, []⟩) := by decide

theorem witness_EveryCommandCompletes : (Instr.ldb 1#24 [0x6B#8]).wf = true ∧
    step (State.reset.withCommand ⟨0x02000002#32, [0x6B#8]⟩) = .refused .payloadMismatch := ⟨by decide, rfl⟩

theorem witness_StepConsumesOneInput : State.reset.inputs = [] ∧ ∃ t, step faulted = .next t ∧ t = faulted :=
  ⟨rfl, _, rfl, rfl⟩

/-- The RUN-mode hypothesis, which most statements have. -/
theorem witness_ClrMakesTheSequenceEmpty : (loaded [0x6B#8]).mode = .run := rfl

/-- `8*n = CAP_BITS` and one byte more. -/
theorem witness_LdbLoadsThePayload :
    ([0x6B#8, 0x00#8].length = (2#24).toNat ∧ (block 16#24 []).mode = .run ∧
      8 * (2#24).toNat ≤ (block 16#24 []).cfg.capBits.toNat) ∧
    ([0x6B#8, 0x00#8, 0x03#8].length = (3#24).toNat ∧ (block 16#24 []).cfg.capBits.toNat < 8 * (3#24).toNat) := by decide

theorem witness_GetReadsTheBit : (loaded [0x6B#8]).mode = .run ∧ (7#24).toNat < (loaded [0x6B#8]).br.length ∧
    (loaded [0x6B#8]).len ≤ (8#24).toNat := by decide

theorem witness_SetWritesOneBit : (loaded [0x6B#8]).mode = .run ∧ (7#24).toNat < (loaded [0x6B#8]).len ∧
    (loaded [0x6B#8]).len ≤ (8#24).toNat := by decide

theorem witness_SlenTruncatesOrExtends : (block 16#24 (ones 8)).mode = .run ∧
    (16#24).toNat ≤ (block 16#24 (ones 8)).cfg.capBits.toNat ∧ (7 < (16#24).toNat ∧ 7 < (block 16#24 (ones 8)).len) ∧
    (8 < (16#24).toNat ∧ (block 16#24 (ones 8)).len ≤ 8) ∧
    (block 16#24 (ones 8)).cfg.capBits.toNat < (17#24).toNat := by decide

theorem witness_ShlMovesBitsTowardIndexZero : (loaded [0xFF#8]).mode = .run ∧ 4 + (3#24).toNat < (loaded [0xFF#8]).len ∧
    5 < (loaded [0xFF#8]).len ∧ (loaded [0xFF#8]).len ≤ 5 + (3#24).toNat := by decide

theorem witness_ExpExportsTheBytes : ((loaded [0xFF#8]).mode = .run ∧ (loaded [0xFF#8]).len % 8 = 0) ∧
    (State.reset.mode = .run ∧ State.reset.len % 8 = 0) ∧
    ((block 16#24 (ones 15)).mode = .run ∧ (block 16#24 (ones 15)).len % 8 ≠ 0) := by decide

theorem witness_ExportAfterLoadReturnsThePayload : (block 16#24 []).mode = .run ∧
    [0x6B#8, 0xA5#8].length = (2#24).toNat ∧ 8 * (2#24).toNat ≤ (block 16#24 []).cfg.capBits.toNat := by decide

theorem witness_ShlThenSlenDropsTheFront : (block 16#24 (ones 16)).mode = .run ∧
    (block 16#24 (ones 16)).len ≤ (block 16#24 (ones 16)).cfg.capBits.toNat ∧
    (5#24).toNat ≤ (block 16#24 (ones 16)).len ∧ (11#24).toNat = (block 16#24 (ones 16)).len - (5#24).toNat := by decide

theorem witness_ShorteningSlenLosesBits : (block 16#24 (ones 10)).mode = .run ∧ (3#24).toNat ≤ (16#24).toNat ∧
    (16#24).toNat ≤ (block 16#24 (ones 10)).cfg.capBits.toNat := by decide

/-- A byte for each case of the length test, under both rules, and the bytes where the two differ. -/
theorem witness_WhlenClassifiesTheFirstByte : State.reset.mode = .run ∧ rfc.mode = .run ∧
    (0x6A#8).getLsbD 0 = false ∧
    ((0x6B#8).getLsbD 0 = true ∧ State.reset.cfg.wbits4 = .doc ∧ (0x6B#8).extractLsb' 0 2 = 0b11#2) ∧
    ((0x05#8).getLsbD 0 = true ∧ rfc.cfg.wbits4 = .rfc ∧ (0x05#8).extractLsb' 1 3 ≠ 0b000#3) ∧
    ((0xF1#8).extractLsb' 0 4 = 0b0001#4 ∧ (0xF1#8).extractLsb' 0 7 ≠ 0b0010001#7) ∧
    ((0x05#8).getLsbD 0 = true ∧ (0x05#8).extractLsb' 0 2 ≠ 0b11#2 ∧ (0x05#8).extractLsb' 0 4 ≠ 0b0001#4) ∧
    ((0x91#8).getLsbD 0 = true ∧ (0x91#8).extractLsb' 1 3 = 0b000#3 ∧ (0x91#8).extractLsb' 0 7 = 0b0010001#7) := by decide

theorem witness_WvalDecodesTheWindowSize : State.reset.mode = .run ∧ (0xFE#8).getLsbD 0 = false ∧
    ((0x0F#8).getLsbD 0 = true ∧ State.reset.cfg.wbits4 = .doc ∧ (0x0F#8).extractLsb' 0 2 = 0b11#2) ∧
    (0x81#8).extractLsb' 0 7 = 0b0000001#7 ∧
    ((0x21#8).extractLsb' 0 4 = 0b0001#4 ∧ 2 ≤ ((0x21#8).extractLsb' 4 3).toNat) ∧
    (nextOf (exec (.wval 0x21#8) State.reset)).map State.rsp = some (some ⟨.ok, false, none, 10#32, []⟩) := by decide

/-- The row of window 22 and the byte `6B`; the row of window 19 under `RFC`. -/
theorem witness_WindowCodeTableDecodes :
    (⟨some 22, 4, 0b1011⟩ ∈ windowCodeTable ∧ (0x6B#8).toNat % 2 ^ 4 = 0b1011 ∧ State.reset.mode = .run ∧
      22 ≠ 19 ∧ 22 ≠ 21 ∧ 22 ≠ 23) ∧
    (⟨some 19, 4, 0b0101⟩ ∈ windowCodeTable ∧ (0x15#8).toNat % 2 ^ 4 = 0b0101 ∧ rfc.mode = .run ∧
      rfc.cfg.wbits4 = .rfc) := by decide

theorem witness_WindowCodeIsAPrefixCode : State.reset.mode = .run ∧ ∃ t r, exec (.whlen 0x6B#8) State.reset = .next t ∧
    t.rsp = some r ∧ r.st = .ok ∧ (0x6B#8).toNat % 2 ^ r.res.toNat = (0xFB#8).toNat % 2 ^ r.res.toNat :=
  ⟨rfl, _, _, rfl, rfl, by decide⟩

theorem witness_WvalIsOntoTheWindowSizes : rfc.mode = .run ∧ (10 ≤ 19 ∧ 19 ≤ 24) ∧
    (nextOf (exec (.wval 0x05#8) rfc)).map State.rsp = some (some ⟨.ok, false, none, 19#32, []⟩) := by decide

theorem witness_WcanonReturnsTheCanonicalCode : (loaded [0x6B#8]).mode = .run := rfl

/-- Aligned; residue 2 at the edge of the capacity; residue 3 beyond it, in a legal state. -/
theorem witness_PadAppendsTheEmptyMetaBlock :
    ((block 16#24 (ones 16)).mode = .run ∧ (block 16#24 (ones 16)).len % 8 = 0) ∧
    ((block 16#24 (ones 10)).mode = .run ∧ (block 16#24 (ones 10)).len % 8 ≠ 0 ∧
      ((block 16#24 (ones 10)).len + 6 + 7) / 8 * 8 ≤ (block 16#24 (ones 10)).cfg.capBits.toNat) ∧
    ((block 16#24 (ones 11)).mode = .run ∧ (block 16#24 (ones 11)).len % 8 ≠ 0 ∧
      (block 16#24 (ones 11)).cfg.capBits.toNat < ((block 16#24 (ones 11)).len + 6 + 7) / 8 * 8 ∧
      (block 16#24 (ones 11)).Inv) := by decide

theorem witness_PadAlignsForExport : ∃ t, exec .pad (block 16#24 (ones 10)) = .next t ∧ t.mode = .run :=
  ⟨_, rfl, rfl⟩

theorem witness_CanonicalHeaderIsThePaddedCode : (block 16#24 [true, true, false, true]).mode = .run ∧
    16 ≤ (block 16#24 [true, true, false, true]).cfg.capBits.toNat := by decide

theorem witness_HchkComparesSixteenBits : (loaded [0x6B#8]).mode = .run ∧ (block 65536#24 (ones 15)).len < 16 ∧
    (16 ≤ (loaded [0x6B#8, 0x00#8]).len ∧
      ∀ i, i < 16 → (loaded [0x6B#8, 0x00#8]).br.getD i false = (0x006B#16).getLsbD i) ∧
    (16 ≤ (loaded [0x6B#8, 0x80#8]).len ∧
      (loaded [0x6B#8, 0x80#8]).br.getD 15 false ≠ (0x006B#16).getLsbD 15) := by decide

/-- No 1 bit; the last 1 bit at index 0; the last 1 bit after a 0; a terminator. -/
theorem witness_TfindLocatesTheTerminator :
    ((loaded [0x00#8]).mode = .run ∧ ∀ j, j < (loaded [0x00#8]).len → (loaded [0x00#8]).br[j]? = some false) ∧
    ((loaded [0x01#8]).br[0]? = some true ∧
      ∀ j, j < (loaded [0x01#8]).len → 0 < j → (loaded [0x01#8]).br[j]? = some false) ∧
    ((loaded [0x05#8]).br[2]? = some true ∧ (loaded [0x05#8]).br[1]? = some false) ∧
    ((loaded [0xC0#8]).br[7]? = some true ∧ (loaded [0xC0#8]).len = 8 ∧ (loaded [0xC0#8]).br[6]? = some true) := by decide

theorem witness_TstripDropsTheTerminator :
    ((loaded []).mode = .run ∧ (loaded []).len = 0) ∧
    ((loaded [0x02#8]).br[1]? = some true ∧ (loaded [0x02#8]).br[0]? = some false ∧
      ∀ j, j < (loaded [0x02#8]).len → 1 < j → (loaded [0x02#8]).br[j]? = some false) ∧
    ((loaded [0x03#8]).br[1]? = some true ∧ (loaded [0x03#8]).br[0]? = some true ∧
      ∀ j, j < (loaded [0x03#8]).len → 1 < j → (loaded [0x03#8]).br[j]? = some false) := by decide

/-- A payload for each of the six outcomes of `XTR`, by the answer of 95 L2.4. -/
theorem witness_XtrExtractsTheBareBlock :
    (answered (block 16#24 []) 0x33000003#32 [0x6B#8, 0x00#8, 0x03#8] = some 0x4000000000#40) ∧
    ([[0x6B#8], [0x6B#8, 0x80#8], [0x6B#8, 0x00#8], [0x6B#8, 0x00#8, 0x01#8], [0x6B#8, 0x00#8, 0x06#8],
        [0x6B#8, 0x00#8, 0x03#8]].map
      fun d => answered (block 24#24 []) (0x33000000#32 + BitVec.ofNat 32 d.length) d) =
    [some 0x0100000000#40, some 0x0200000000#40, some 0x0300000000#40, some 0x0400000000#40, some 0x0800000001#40,
      some 0x0800000000#40] := by decide

/-- The composition runs to its end, and stops at a negative `HCHK`. -/
theorem witness_XtrIsTheCompositionOfItsSteps : State.reset.mode = .run ∧ [0x6B#8, 0x00#8, 0x06#8].length = (3#24).toNat ∧
    (execUntilNegative [.ldb 3#24 [0x6B#8, 0x00#8, 0x06#8], .hchk, .shl 16#24, .tstrip, .pad, .exp] State.reset).map
      SequenceResult.ended = some true ∧
    (execUntilNegative [.ldb 3#24 [0x6B#8, 0x01#8, 0x06#8], .hchk, .shl 16#24, .tstrip, .pad, .exp] State.reset).map
      SequenceResult.ended = some false := by decide

theorem witness_XtrReturnsTheWrappedBytes : (block 40#24 []).mode = .run ∧ (5#24).toNat = [0xA5#8].length + 3 + 1 ∧
    8 * (5#24).toNat ≤ (block 40#24 []).cfg.capBits.toNat := by decide

theorem witness_AssembledStreamExtractsToItsBlocks : State.reset.mode = .run ∧
    (7#24).toNat = (assembleStream [[0xA5#8, 0x0F#8], [], [0xA5#8, 0x0D#8]]).length ∧
    8 * (7#24).toNat ≤ State.reset.cfg.capBits.toNat := by decide

/-- The output of `n - 1` bytes, and the fault at step 1. -/
theorem witness_XtrOutputIsBounded :
    (∃ t r, exec (.xtr 3#24 [0x6B#8, 0x00#8, 0xFF#8]) State.reset = .next t ∧ t.rsp = some r ∧ r.f = true ∧
      r.dout.length = 2) ∧
    ∃ t r, exec (.xtr 3#24 [0x6B#8, 0x00#8, 0xFF#8]) (block 16#24 []) = .next t ∧ t.rsp = some r ∧ r.st ≠ .ok :=
  ⟨⟨_, _, rfl, rfl, by decide⟩, _, _, rfl, rfl, by decide⟩

theorem witness_NotExtractableIsNotAFault : ∃ t r, exec .tstrip (loaded [0x05#8]) = .next t ∧ t.rsp = some r ∧ r.nx ≠ none :=
  ⟨_, _, rfl, rfl, by decide⟩

theorem witness_RdcReadsTheControlRegisters : 9 ≤ (9#4).toNat ∧ 9 ≤ (15#4).toNat ∧ State.reset.mode = .run ∧
    faulted.mode = .faulted := by decide

theorem witness_RstGivesTheResetState : 1#24 ≠ 0#24 := by decide

theorem witness_FaultedModeRefusesCommands : (Instr.ldb 1#24 [0xFF#8]).wf = true ∧ faulted.mode = .faulted ∧
    Instr.ldb 1#24 [0xFF#8] ≠ .rst ∧ Instr.rdc 9#4 ≠ .rst ∧ 9 ≤ (9#4).toNat := by decide

theorem witness_FaultEntryIsPrecise : (loaded [0x6B#8]).mode = .run ∧
    ∃ t, step ((loaded [0x6B#8]).withCommand ⟨0x03000008#32, []⟩) = .next t ∧ t.mode = .faulted :=
  ⟨rfl, _, rfl, rfl⟩

/-- By `RST`, and by hardware reset. -/
theorem witness_FaultedModeIsLeftOnlyByReset : faulted.mode = .faulted ∧
    (∃ t, step (faulted.withCommand ⟨0x7F000000#32, []⟩) = .next t ∧ t.mode = .run) ∧
    ∃ t, step { faulted with inputs := [.reset] } = .next t ∧ t.mode = .run :=
  ⟨rfl, ⟨_, rfl, rfl⟩, _, rfl, rfl⟩

theorem witness_RecordIsNeverOverwritten : faulted.mode = .faulted ∧
    ∃ t, step (faulted.withCommand ⟨0x09000000#32, []⟩) = .next t ∧ t.mode = .faulted :=
  ⟨rfl, _, rfl, rfl⟩

/-- The frozen bits `1,0,1,0,0` and `0,1,1,1,1`, and the host's `RDC 0`. -/
theorem witness_FrozenBitsCannotBeRead :
    let s := faulted.withCommand ⟨0x40000000#32, []⟩
    let s' : State := { s with br := [false, true, true, true, true] }
    s.mode = .faulted ∧ s.agreeButBits s' ∧ ∃ t t', step s = .next t ∧ step s' = .next t' :=
  ⟨rfl, ⟨rfl, rfl⟩, _, _, rfl, rfl⟩

theorem witness_EachCommandRaisesOnlyItsOwnFault : ∃ t r, exec .exp (block 16#24 (ones 3)) = .next t ∧ t.rsp = some r ∧
    r.st = .fault .invalidState :=
  ⟨_, _, rfl, rfl, rfl⟩

theorem witness_CapacityErrorExactly : (block 16#24 (ones 11)).mode = .run ∧
    [0x00#8, 0x00#8].length = (2#24).toNat ∧ [0x00#8, 0x00#8, 0x00#8].length = (3#24).toNat ∧
    ¬ (block 16#24 (ones 11)).cfg.capBits.toNat < 8 * (2#24).toNat ∧
    (block 16#24 (ones 11)).cfg.capBits.toNat < 8 * (3#24).toNat ∧
    (block 16#24 (ones 11)).cfg.capBits.toNat < ((block 16#24 (ones 11)).len + 6 + 7) / 8 * 8 := by decide

/-- `SLEN 4`, `PAD`, `EXP` from the reset state. -/
theorem witness_GoodRunEndsWithNoFault : State.reset.noFault ∧
    (runCommands [⟨0x06000004#32, []⟩, ⟨0x20000000#32, []⟩, ⟨0x08000000#32, []⟩] State.reset).map RunResult.good =
      some true := by decide

theorem witness_LengthIsWrittenByTheseCommandsOnly : (∃ t, exec (.slen 3#24) (loaded [0x6B#8]) = .next t ∧
      t.len ≠ (loaded [0x6B#8]).len) ∧
    (∃ t, step { loaded [0x6B#8] with inputs := [.reset] } = .next t ∧ t.len ≠ (loaded [0x6B#8]).len) ∧
    (loaded [0x6B#8]).Inv ∧ ∃ t, step ((loaded [0x6B#8]).withCommand ⟨0x06000003#32, []⟩) = .next t :=
  ⟨⟨_, rfl, by decide⟩, ⟨_, rfl, by decide⟩, by decide, _, rfl⟩

theorem witness_SequenceIsWrittenByTheseCommandsOnly : ∃ t, exec (.shl 1#24) (loaded [0x6B#8]) = .next t ∧
    t.br ≠ (loaded [0x6B#8]).br :=
  ⟨_, rfl, by decide⟩

/-- A fault, a flag, a reason, a payload. -/
theorem witness_ResponseShape : (∃ t r, exec (.get 8#24) (loaded [0x6B#8]) = .next t ∧ t.rsp = some r ∧ r.st ≠ .ok) ∧
    (∃ t r, exec (.get 0#24) (loaded [0x6B#8]) = .next t ∧ t.rsp = some r ∧ r.f = true) ∧
    (∃ t r, exec .hchk (loaded [0x6B#8]) = .next t ∧ t.rsp = some r ∧ r.nx = some .tooShort) ∧
    (loaded [0x6B#8]).Inv ∧ ∃ t r, exec .exp (loaded [0x6B#8]) = .next t ∧ t.rsp = some r ∧ r.dout = [0x6B#8] :=
  ⟨⟨_, _, rfl, rfl, by decide⟩, ⟨_, _, rfl, rfl, by decide⟩, ⟨_, _, rfl, rfl, by decide⟩, by decide, _, _, rfl, rfl, by decide⟩

theorem witness_OutputsAreNotReadByCommands : (Instr.xtr 1#24 [0x6B#8]).wf = true := by decide

theorem witness_HardwareResetGivesTheResetState :
    ({ faulted with inputs := [.reset, .command ⟨0x01000000#32, []⟩] } : State).inputs =
      .reset :: [.command ⟨0x01000000#32, []⟩] := rfl

theorem witness_ResetValues : ({ faulted with inputs := [.reset] } : State).inputs = .reset :: [] := rfl

/-- A legal state that is about to fault, and one that is FAULTED. -/
theorem witness_StepKeepsTheStateLegal : (loaded [0x6B#8]).Inv ∧ faulted.Inv ∧
    (∃ t, step ((loaded [0x6B#8]).withCommand ⟨0x03000008#32, []⟩) = .next t ∧ t.mode = .faulted) ∧
    ∃ t, step (faulted.withCommand ⟨0x40000002#32, []⟩) = .next t :=
  ⟨by decide, by decide, ⟨_, rfl, rfl⟩, _, rfl⟩

/-- The least and the greatest legal capacity. -/
theorem witness_ResetStateIsLegal : Config.legal ⟨16#24, .rfc⟩ ∧ Config.legal ⟨16777208#24, .doc⟩ := by decide

theorem reset_inv : State.reset.Inv := by decide

/-- The FAULTED state's record is explained: `EXP` on a length that is no multiple of 8. -/
theorem witness_StepKeepsTheRecordExplained : faulted.Inv ∧ faulted.recordExplained ∧
    ∃ t, step (faulted.withCommand ⟨0x02000002#32, [0xFF#8, 0xFF#8]⟩) = .next t :=
  ⟨by decide, ⟨by decide, by decide, by decide, by decide, by decide⟩, _, rfl⟩

end Sys2Proof.Tests
end

/-! Every step keeps a state legal (O57): the shared operations on a state keep `State.Inv`, so does every case
of a command's rule, and so does a step. -/

namespace Sys2Proof.Machine

/-! ### The shapes of the responses (30 R63 to R66) -/

theorem Response.ok_wf (f : Bool) (res : Word) : (Response.ok f res).wf := by simp [Response.wf, Response.ok]

theorem Response.notFound_wf (r : NotFound) : (Response.notFound r).wf := by simp [Response.wf, Response.notFound]

theorem Response.fault_wf (c : Cause) : (Response.fault c).wf := by simp [Response.wf, Response.fault]

theorem Response.halted_wf : Response.halted.wf := by simp [Response.wf, Response.halted]

/-- The length of a payload fits in `RES` (30 R66). -/
theorem Response.bytes_wf (f : Bool) {dout : List Byte} (h : dout.length < 2 ^ 32) : (Response.bytes f dout).wf :=
  ⟨fun hst => absurd rfl hst, fun hnx => absurd rfl hnx, fun _ => (Nat.mod_eq_of_lt h).symm⟩

/-! ### Lengths that a legal state can hold -/

/-- Exporting a sequence that fits in a legal block gives a payload whose length fits in `RES`. -/
theorem bytes_exportBytes_wf {c : Config} {b : Bits} (f : Bool) (hc : c.legal) (hb : b.length ≤ c.capBits.toNat) :
    (Response.bytes f (exportBytes b)).wf := by
  have hcap := Config.legal_le hc
  refine Response.bytes_wf f ?_
  rw [exportBytes_length]
  omega

theorem stripAt_length_le (l : Nat) (br : Bits) : (stripAt l br).length ≤ br.length := List.length_take_le' _ _

theorem padBits_length_le (br : Bits) : (padBits br).length ≤ br.length + 13 := by
  by_cases h : br.length % 8 = 0
  · rw [padBits_of_aligned h]; omega
  · rw [padBits_length h, ceil8]; omega

/-- An extraction leaves no more bits than it loaded (43 R133): the header's 16 and the terminator's make room for the
padding. -/
theorem extract_length_le (b : Bits) : (extract b).1.length ≤ b.length := by
  obtain ⟨r, -, he⟩ | ⟨r, -, -, he⟩ | ⟨l, -, hl, he⟩ := extract_cases b
  · simp [he]
  · simp [he]
  · have hin : l + 16 < b.length := tscan_shiftOut_ok hl
    have hstrip : (stripAt l (shiftOut 16 b)).length = l - 1 := stripAt_length (by simp; omega)
    have hpad := padBits_length_le (stripAt l (shiftOut 16 b))
    simp only [he]
    omega

theorem extract_wf {c : Config} {b : Bits} (hc : c.legal) (hb : b.length ≤ c.capBits.toNat) : (extract b).2.wf := by
  have hlen := extract_length_le b
  obtain ⟨r, -, he⟩ | ⟨r, -, -, he⟩ | ⟨l, -, -, he⟩ := extract_cases b
  · rw [he]; exact Response.notFound_wf r
  · rw [he]; exact Response.notFound_wf r
  · rw [he] at hlen ⊢
    exact bytes_exportBytes_wf true hc (hlen.trans hb)

/-! ### The operations on a state keep it legal -/

theorem Cause.code_ne_zero (c : Cause) : c.code ≠ 0#4 := by cases c <;> decide

theorem Cause.code_le (c : Cause) : c.code.toNat ≤ 5 := by cases c <;> decide

/-- A new sequence that fits and a response of the given shape. -/
theorem State.Inv.answer {s : State} {b : Bits} {r : Response} (hs : s.Inv) (hb : b.length ≤ s.cfg.capBits.toNat)
    (hr : r.wf) : (s.answer b r).Inv := by
  obtain ⟨hcfg, -, hrec, -⟩ := hs
  exact ⟨hcfg, hb, hrec, by rintro _ ⟨⟩; exact hr⟩

theorem State.Inv.respond {s : State} {r : Response} (hs : s.Inv) (hr : r.wf) : (s.respond r).Inv :=
  have ⟨_, hlen, _, _⟩ := hs
  hs.answer hlen hr

/-- A fault records its cause with the mode, and leaves the sequence (60 R160). -/
theorem State.Inv.raise {s : State} (hs : s.Inv) (c : Cause) (w : Word) : (s.raise c w).Inv := by
  obtain ⟨hcfg, hlen, -, -⟩ := hs
  exact ⟨hcfg, hlen, ⟨by simp [Cause.code_ne_zero c], c.code_le, by simp⟩,
    by rintro _ ⟨⟩; exact Response.fault_wf c⟩

theorem State.Inv.softReset {s : State} (hs : s.Inv) : s.softReset.Inv := by
  obtain ⟨hcfg, -, -, hrsp⟩ := hs
  exact ⟨hcfg, by simp [State.len], by simp [State.recordOk], hrsp⟩

theorem State.Inv.hardReset {s : State} (hs : s.Inv) : s.hardReset.Inv := by
  obtain ⟨hcfg, -, -, -⟩ := hs
  exact ⟨hcfg, by simp [State.len], by simp [State.recordOk], by simp⟩

/-- Legality does not look at the host's stream. -/
theorem State.Inv.withInputs {s : State} (hs : s.Inv) (rest : List HostInput) : State.Inv { s with inputs := rest } := hs

/-! ### Commands and steps keep a state legal -/

/-- Each case of a command's rule: a fault, a response alone, or a new sequence that fits. -/
theorem InRun.inv {i : Instr} {s t : State} (h : InRun i s t) (hs : s.Inv) : t.Inv := by
  have ⟨hcfg, hlen, _, _⟩ := hs
  cases h with
  | ldbOver | getOutside | setOutside | slenOver | expUnaligned | whlenBad | wvalBad | padOver | xtrOver | rdcIllegal =>
    exact hs.raise _ _
  | get | whlen | wval | wcanon | padAligned | hchk | tfind => exact hs.respond (Response.ok_wf _ _)
  | hchkNot | tfindNot | tstripNot => exact hs.respond (Response.notFound_wf _)
  | exp => exact hs.respond (bytes_exportBytes_wf _ hcfg hlen)
  | clr => exact hs.answer (Nat.zero_le _) (Response.ok_wf _ _)
  | ldb _ n din hl hf => exact hs.answer (by rwa [loadBits_length, hl]) (Response.ok_wf _ _)
  | set => exact hs.answer (by rwa [List.length_set]) (Response.ok_wf _ _)
  | slen => exact hs.answer (by rwa [setLength_length]) (Response.ok_wf _ _)
  | shl => exact hs.answer (by rwa [shiftOut_length]) (Response.ok_wf _ _)
  | pad _ hu hf => exact hs.answer (by rwa [padBits_length hu]) (Response.ok_wf _ _)
  | tstrip => exact hs.answer ((stripAt_length_le _ _).trans hlen) (Response.ok_wf _ _)
  | xtr _ n din hl hf =>
    have hload : (loadBits din).length ≤ s.cfg.capBits.toNat := by rwa [loadBits_length, hl]
    exact hs.answer ((extract_length_le _).trans hload) (extract_wf hcfg hload)

theorem exec_inv {i : Instr} {s t : State} (h : exec i s = .next t) (hs : s.Inv) : t.Inv := by
  cases exec_cases h with
  | inRun _ hrun => exact hrun.inv hs
  | rdc k v _ _ _ ht => exact ht ▸ hs.respond (Response.ok_wf _ _)
  | rst _ ht => exact ht ▸ hs.softReset.respond (Response.ok_wf _ _)
  | halted _ ht => exact ht ▸ hs.respond Response.halted_wf

theorem illegal_inv {s t : State} {w : Word} (h : s.illegal w = .next t) (hs : s.Inv) : t.Inv := by
  obtain ⟨-, rfl⟩ | ⟨-, rfl⟩ := illegal_cases h
  · exact hs.raise _ _
  · exact hs.respond Response.halted_wf

/-- Settles O57, by the four ways a step answers a next state. -/
theorem stepKeepsTheStateLegal : Obligations.StepKeepsTheStateLegal := by
  intro s t hs h
  obtain ⟨-, rfl⟩ | ⟨rest, -, rfl⟩ | ⟨c, rest, i, -, -, hexec⟩ | ⟨c, rest, -, -, hill⟩ := step_cases h
  · exact hs
  · exact (hs.withInputs rest).hardReset
  · exact exec_inv hexec (hs.withInputs rest)
  · exact illegal_inv hill (hs.withInputs rest)

end Sys2Proof.Machine

/-! What a command does to the sequence and its length, and the state at reset (O7, O29, O49, O50, O53, O54, O58). -/

namespace Sys2Proof.Machine

/-! ### A step on the host's next move -/

theorem step_of_command {s : State} {c : Command} {rest : List HostInput} {i : Instr}
    (h : s.inputs = .command c :: rest) (hd : decode c = .ok i) : step s = exec i { s with inputs := rest } := by
  simp only [step, takeInput, h, issue, hd]

theorem step_of_reset {s : State} {rest : List HostInput} (h : s.inputs = .reset :: rest) :
    step s = .next (State.hardReset { s with inputs := rest }) := by
  simp only [step, takeInput, h]

/-- Settles O7: the step is the transaction of the command taken. -/
theorem stepExecutesTheDecodedCommand : Obligations.StepExecutesTheDecodedCommand :=
  fun _ _ _ _ => step_of_command

/-! ### The canonical header is the padded code (10 R31) -/

theorem padBits_canonicalCode : padBits [true, true, false, true] = chdrBits := by decide

theorem loadBits_canonicalBytes : loadBits [0x6B#8, 0x00#8] = chdrBits := by decide

theorem exportBytes_chdrBits : exportBytes chdrBits = [0x6B#8, 0x00#8] := by
  rw [← loadBits_canonicalBytes, exportBytes_loadBits]

theorem chdrBits_getElem? : ∀ j < 16, chdrBits[j]? = some (chdr.getLsbD j) := by decide

/-- Settles O29: `PAD` makes the sequence `chdrBits`, which `EXP` and `HCHK` then read. -/
theorem canonicalHeaderIsThePaddedCode : Obligations.CanonicalHeaderIsThePaddedCode := by
  intro s hm hbr hcap
  have hlen : s.len = 4 := by rw [State.len, hbr]; rfl
  have hpad := exec_pad_fits hm (by omega) (by rw [hlen]; exact hcap)
  rw [hbr, padBits_canonicalCode] at hpad
  refine ⟨_, _, _, hpad, rfl, chdrBits_getElem?, exec_exp_aligned hm ?_, ?_, exec_hchk_match hm rfl, rfl⟩
  · rw [State.answer_len]
    rfl
  · rw [State.respond_rsp, State.answer_br, exportBytes_chdrBits]
    rfl

/-! ### Who writes the sequence (10 R23) -/

/-- The commands that write the sequence. -/
inductive WritesSequence : Instr → Prop where
  | ldb (n d) : WritesSequence (.ldb n d)
  | set (j v) : WritesSequence (.set j v)
  | slen (n) : WritesSequence (.slen n)
  | shl (n) : WritesSequence (.shl n)
  | pad : WritesSequence .pad
  | xtr (n d) : WritesSequence (.xtr n d)
  | clr : WritesSequence .clr
  | tstrip : WritesSequence .tstrip
  | rst : WritesSequence .rst

/-- In RUN mode every other command only answers or faults, and both leave the sequence. -/
theorem InRun.writesSequence {i : Instr} {s t : State} (h : InRun i s t) (hne : t.br ≠ s.br) : WritesSequence i := by
  cases h with
  | ldb | ldbOver => exact .ldb _ _
  | set | setOutside => exact .set _ _
  | slen | slenOver => exact .slen _
  | shl => exact .shl _
  | pad | padAligned | padOver => exact .pad
  | xtr | xtrOver => exact .xtr _ _
  | clr => exact .clr
  | tstrip | tstripNot => exact .tstrip
  | get | getOutside | exp | expUnaligned | whlen | whlenBad | wval | wvalBad | wcanon | hchk | hchkNot | tfind
  | tfindNot | rdcIllegal => exact absurd rfl hne

theorem exec_writesSequence {i : Instr} {s t : State} (h : exec i s = .next t) (hne : t.br ≠ s.br) :
    WritesSequence i := by
  cases exec_cases h with
  | inRun _ hrun => exact hrun.writesSequence hne
  | rdc _ _ _ _ _ ht | halted _ ht => exact absurd (congrArg State.br ht) hne
  | rst hi _ => exact hi ▸ .rst

theorem stripAt_prefix (l : Nat) (br : Bits) : stripAt l br <+: br := List.take_prefix _ _

/-- `CLR`, `TSTRIP` and `RST` only drop cells. -/
theorem exec_br_prefix {i : Instr} {s t : State} (h : exec i s = .next t) (hi : i = .clr ∨ i = .tstrip ∨ i = .rst) :
    t.br <+: s.br := by
  cases exec_cases h with
  | rdc _ _ _ _ _ ht | halted _ ht => exact ht ▸ List.prefix_rfl
  | rst _ ht => exact ht ▸ List.nil_prefix
  | inRun _ hrun =>
    obtain rfl | rfl | rfl := hi
    · cases hrun
      exact List.nil_prefix
    · cases hrun with
      | tstrip => exact stripAt_prefix _ _
      | tstripNot => exact List.prefix_rfl
    · cases hrun

/-- Settles O50, by the cases of what a command can do. -/
theorem sequenceIsWrittenByTheseCommandsOnly : Obligations.SequenceIsWrittenByTheseCommandsOnly := by
  intro i s t h
  refine ⟨fun hne => ?_, exec_br_prefix h, exec_cfg h, exec_inputs h⟩
  cases exec_writesSequence h hne <;> simp

/-! ### Who writes the length (10 R22, R27) -/

theorem len_eq_of_br_eq {s t : State} (h : t.br = s.br) : t.len = s.len := congrArg List.length h

theorem exec_set_len {j : Arg} {v : Bool} {s t : State} (h : exec (.set j v) s = .next t) : t.len = s.len := by
  cases exec_cases h with
  | inRun _ hrun =>
    cases hrun with
    | set => exact List.length_set
    | setOutside => rfl
  | rdc _ _ _ _ _ ht | halted _ ht => exact ht ▸ rfl
  | rst hi => cases hi

theorem exec_shl_len {n : Arg} {s t : State} (h : exec (.shl n) s = .next t) : t.len = s.len := by
  cases exec_cases h with
  | inRun _ hrun =>
    cases hrun
    exact shiftOut_length _ _
  | rdc _ _ _ _ _ ht | halted _ ht => exact ht ▸ rfl
  | rst hi => cases hi

/-- A command that writes the length writes the sequence, and is neither `SET` nor `SHL`. -/
theorem exec_len_ne {i : Instr} {s t : State} (h : exec i s = .next t) (hne : t.len ≠ s.len) :
    i = .clr ∨ (∃ n d, i = .ldb n d) ∨ (∃ n, i = .slen n) ∨ i = .pad ∨ i = .tstrip ∨ (∃ n d, i = .xtr n d) ∨
      i = .rst := by
  cases exec_writesSequence h (fun hbr => hne (len_eq_of_br_eq hbr)) with
  | set => exact absurd (exec_set_len h) hne
  | shl => exact absurd (exec_shl_len h) hne
  | ldb | slen | pad | xtr | clr | tstrip | rst => simp

theorem illegal_len {s t : State} {w : Word} (h : s.illegal w = .next t) : t.len = s.len := by
  obtain ⟨-, rfl⟩ | ⟨-, rfl⟩ := illegal_cases h <;> rfl

/-- A step that writes the length is hardware reset or a command of the table. -/
theorem step_len_ne {s t : State} (h : step s = .next t) (hne : t.len ≠ s.len) :
    ∃ rest, s.inputs = .reset :: rest ∨ ∃ c i, s.inputs = .command c :: rest ∧ decode c = .ok i := by
  obtain ⟨-, rfl⟩ | ⟨rest, hin, -⟩ | ⟨c, rest, i, hin, hd, -⟩ | ⟨c, rest, -, -, hill⟩ := step_cases h
  · exact absurd rfl hne
  · exact ⟨rest, .inl hin⟩
  · exact ⟨rest, .inr ⟨c, i, hin, hd⟩⟩
  · exact absurd (illegal_len hill) hne

/-- The length of a legal state fits in `RES`. -/
theorem State.Inv.resOf_len {s : State} (hs : s.Inv) : (resOf s.len).toNat = s.len := by
  obtain ⟨hcfg, hlen, -, -⟩ := hs
  have hcap := Config.legal_le hcfg
  rw [resOf, BitVec.toNat_ofNat]
  omega

/-- Settles O49, from what writes the sequence, the ways of a step, the invariant, and control register 0. -/
theorem lengthIsWrittenByTheseCommandsOnly : Obligations.LengthIsWrittenByTheseCommandsOnly := by
  refine ⟨fun _ _ _ => exec_len_ne, fun _ _ => step_len_ne, fun s t hs h => ?_, fun s hs => ?_⟩
  · obtain ⟨-, hlen, -, -⟩ := stepKeepsTheStateLegal s t hs h
    exact hlen
  · exact ⟨_, _, exec_rdc_legal rfl, rfl, hs.resOf_len⟩

/-! ### No command reads the response (10 R25, R34) -/

/-- The mode check does not read the response, and a refusal replaces it. -/
theorem State.accept_withRsp (s n : State) (o : Option Response) :
    State.accept { s with rsp := o } n = s.accept n := rfl

theorem exec_withRsp (i : Instr) (s : State) (o : Option Response) : exec i { s with rsp := o } = exec i s := by
  cases i with
  | clr | get | set | slen | shl | exp | whlen | wval | wcanon | pad | hchk | tfind | tstrip =>
    exact State.accept_withRsp s _ o
  | ldb n din | xtr n din => exact congrArg (withPayload n din) (State.accept_withRsp s _ o)
  | rdc k => rfl
  | rst => rfl

/-- Settles O53: every command's answer replaces the response, and nothing in its rule reads it. -/
theorem outputsAreNotReadByCommands : Obligations.OutputsAreNotReadByCommands :=
  fun i s o _ => exec_withRsp i s o

/-! ### The state at reset (10 R35) -/

/-- Control registers 4 to 8 and `fault_o` follow from the other fields (10 R26, 60 R165). -/
theorem State.atReset_of_fields {t : State} {c : Config} (hbr : t.br = []) (hm : t.mode = .run) (hcause : t.fcause = 0#4)
    (hcmd : t.fcmd = 0#32) (hcfg : t.cfg = c) : t.atReset c := by
  subst hcfg
  exact ⟨by rw [State.len, hbr]; rfl, hm, hcause, hcmd, rfl, rfl, rfl, rfl, rfl, by rw [State.faultO, hm]⟩

theorem Config.default_legal : Config.default.legal := by decide

/-- Settles O54: reset, hardware reset and `RST` write the same fields. -/
theorem resetValues : Obligations.ResetValues := by
  refine ⟨fun c => ⟨State.atReset_of_fields rfl rfl rfl rfl rfl, rfl⟩, fun s rest h => ?_, fun s => ?_, ?_⟩
  · exact ⟨_, step_of_reset h, State.atReset_of_fields rfl rfl rfl rfl rfl, rfl⟩
  · exact ⟨_, rfl, State.atReset_of_fields rfl rfl rfl rfl rfl⟩
  · exact ⟨Config.default, Config.default_legal, rfl⟩

theorem State.resetWith_inv {c : Config} (h : c.legal) : (State.resetWith c).Inv :=
  ⟨h, Nat.zero_le _, by simp [State.recordOk, State.resetWith], by simp [State.resetWith]⟩

/-- With no cause recorded there is nothing to explain. -/
theorem State.recordExplained_of_no_cause {s : State} (h : s.fcause = 0#4) : s.recordExplained := by
  have hne (c : Cause) : s.fcause ≠ c.code := h ▸ c.code_ne_zero.symm
  exact ⟨fun hc => absurd hc (hne _), fun hc => absurd hc (hne _), fun hc => absurd hc (hne _),
    fun hc => absurd hc (hne _), fun hc => absurd hc (hne _)⟩

/-- Settles O58: the reset state is legal for every legal value of the parameters, the default ones included. -/
theorem resetStateIsLegal : Obligations.ResetStateIsLegal := by
  have hreset (c : Config) (hc : c.legal) : (State.resetWith c).Inv ∧ (State.resetWith c).recordExplained :=
    ⟨State.resetWith_inv hc, State.recordExplained_of_no_cause rfl⟩
  exact ⟨hreset, hreset Config.default Config.default_legal⟩

end Sys2Proof.Machine

/-! Exporting what was loaded returns the same bytes (O18). -/

namespace Sys2Proof.Machine

/-- A load leaves whole bytes, so an export of what it left does not fault (20 R43, R44). -/
theorem State.answer_loadBits_aligned (s : State) (din : List Byte) (r : Response) :
    (s.answer (loadBits din) r).len % 8 = 0 := by
  rw [State.answer_len, loadBits_length, Nat.mul_mod_right]

/-- `EXP` after a load answers with the payload of the load (20 R43, R44). -/
theorem exec_exp_of_loaded {s : State} {din : List Byte} {r : Response} (hm : s.mode = .run) :
    exec .exp (s.answer (loadBits din) r) =
      .next ((s.answer (loadBits din) r).respond (Response.bytes false din)) := by
  rw [exec_exp_aligned (s := s.answer (loadBits din) r) hm (s.answer_loadBits_aligned din r),
    State.answer_br, exportBytes_loadBits]

/-- `RES` of an output payload of `n` bytes is the operand `n`, zero-extended (30 R66). -/
theorem Response.bytes_of_length {n : Arg} {dout : List Byte} (f : Bool) (hl : dout.length = n.toNat) :
    Response.bytes f dout = ⟨.ok, f, none, n.setWidth 32, dout⟩ := by
  rw [Response.bytes, hl, BitVec.ofNat_toNat]

/-- Settles O18: the export of the loaded bits is the payload, and its length is the operand of the load. -/
theorem exportAfterLoadReturnsThePayload : Obligations.ExportAfterLoadReturnsThePayload :=
  fun _ _ _ hm hl hf =>
    ⟨_, _, exec_ldb_fits hl hm hf, exec_exp_of_loaded hm, rfl, congrArg some (Response.bytes_of_length false hl)⟩

end Sys2Proof.Machine

/-! Decode and encode agree, and the opcode table decides which words are commands (O1 to O6). -/

namespace Sys2Proof

/-! ### The encoder: what the payload length and the rows say of a command's word -/

theorem payloadLength_append (o : BitVec 8) (a : Arg) :
    payloadLength (o ++ a) = if o = 0x02#8 ∨ o = 0x33#8 then a.toNat else 0 := by
  rw [payloadLength, opcOf_append, argOf_append]

/-- The payload bytes a command takes: `ARG` of them in format P, none elsewhere (30 R72). -/
def Instr.payloadCount : Instr → Nat
  | .ldb n _ => n.toNat
  | .xtr n _ => n.toNat
  | _ => 0

/-- The payload length is told from the command's word (30 R72). -/
theorem payloadLength_encodeWord (i : Instr) : payloadLength (encodeWord i) = i.payloadCount := by
  cases i with
  | set j v => cases v <;> exact payloadLength_append _ _
  | _ => exact payloadLength_append _ _

/-- A command is well formed when its payload has the length its word asks for (30 R72). -/
theorem Instr.wf_iff (i : Instr) : i.wf = true ↔ (payloadOf i).length = payloadLength (encodeWord i) := by
  rw [payloadLength_encodeWord]
  cases i with
  | ldb | xtr => exact beq_iff_eq
  | _ => exact iff_of_true rfl rfl

/-- Every command's word selects the row of its own mnemonic. -/
theorem encodeWord_selects_ownRow (i : Instr) :
    ∃ r ∈ opcodeTable, r.mnemonic = i.mnemonic ∧ r.selects (encodeWord i) = true := by
  cases i with
  | clr => exact Laws.OwnRow.clr
  | ldb n din => exact Laws.OwnRow.ldb n din
  | get j => exact Laws.OwnRow.get j
  | set j v => exact Laws.OwnRow.set j v
  | slen n => exact Laws.OwnRow.slen n
  | shl n => exact Laws.OwnRow.shl n
  | exp => exact Laws.OwnRow.exp
  | whlen b => exact Laws.OwnRow.whlen b
  | wval b => exact Laws.OwnRow.wval b
  | wcanon => exact Laws.OwnRow.wcanon
  | pad => exact Laws.OwnRow.pad
  | hchk => exact Laws.OwnRow.hchk
  | tfind => exact Laws.OwnRow.tfind
  | tstrip => exact Laws.OwnRow.tstrip
  | xtr n din => exact Laws.OwnRow.xtr n din
  | rdc k => exact Laws.OwnRow.rdc k
  | rst => exact Laws.OwnRow.rst

/-! ### The decoder: its three answers -/

theorem decode_eq_ok {c : Command} {i : Instr} :
    decode c = .ok i ↔ c.payload.length = payloadLength c.word ∧ decodeWord c.word c.payload = some i := by
  unfold decode
  split
  · cases decodeWord c.word c.payload <;> simp [*]
  · simp [*]

theorem decode_eq_illegalCommand {c : Command} :
    decode c = .error .illegalCommand ↔
      c.payload.length = payloadLength c.word ∧ decodeWord c.word c.payload = none := by
  unfold decode
  split
  · cases decodeWord c.word c.payload <;> simp [*]
  · simp [*]

theorem decode_eq_payloadMismatch {c : Command} :
    decode c = .error .payloadMismatch ↔ c.payload.length ≠ payloadLength c.word := by
  unfold decode
  split
  · cases decodeWord c.word c.payload <;> simp [*]
  · simp [*]

/-! ### A command's word decodes to the command -/

/-- The command with another payload, where its format has one. -/
def Instr.replacePayload : Instr → List Byte → Instr
  | .ldb n _, din => .ldb n din
  | .xtr n _, din => .xtr n din
  | i, _ => i

theorem Instr.replacePayload_payloadOf (i : Instr) : i.replacePayload (payloadOf i) = i := by
  cases i <;> rfl

/-- A payload of the length the word asks for is the payload of the command it is put into. -/
theorem payloadOf_replacePayload {i : Instr} {din : List Byte} (h : din.length = payloadLength (encodeWord i)) :
    payloadOf (i.replacePayload din) = din := by
  rw [payloadLength_encodeWord] at h
  cases i with
  | ldb | xtr => rfl
  | _ => exact (List.eq_nil_of_length_eq_zero h).symm

theorem decodeB_append {o : BitVec 8} (b : Byte) (f : Byte → Instr) :
    decodeB (o ++ (0#16 ++ b : Arg)) f = some (f b) := by
  rw [decodeB, argOf_append, BitVec.extractLsb'_append_eq_left, BitVec.extractLsb'_append_eq_right, if_pos rfl]

theorem decodeR_append {o : BitVec 8} (k : BitVec 4) (f : BitVec 4 → Instr) :
    decodeR (o ++ (0#20 ++ k : Arg)) f = some (f k) := by
  rw [decodeR, argOf_append, BitVec.extractLsb'_append_eq_left, BitVec.extractLsb'_append_eq_right, if_pos rfl]

/-- Whatever the payload, a command's word decodes to that command with that payload. -/
theorem decodeWord_encodeWord (i : Instr) (din : List Byte) :
    decodeWord (encodeWord i) din = some (i.replacePayload din) := by
  cases i with
  | clr | exp | wcanon | pad | hchk | tfind | tstrip | rst => rfl
  | ldb | get | slen | shl | xtr =>
    simp only [decodeWord, encodeWord, opcOf_append, argOf_append]
    rfl
  | set j v =>
    cases v <;> simp only [decodeWord, opcOf_encodeWord_set, argOf_encodeWord_set] <;> rfl
  | whlen b =>
    have ho : opcOf (encodeWord (.whlen b)) = 0x10#8 := opcOf_append _ _
    simp only [decodeWord, ho]
    exact decodeB_append b _
  | wval b =>
    have ho : opcOf (encodeWord (.wval b)) = 0x11#8 := opcOf_append _ _
    simp only [decodeWord, ho]
    exact decodeB_append b _
  | rdc k =>
    have ho : opcOf (encodeWord (.rdc k)) = 0x40#8 := opcOf_append _ _
    simp only [decodeWord, ho]
    exact decodeR_append k _

theorem decode_encode (i : Instr) (h : i.wf = true) : decode (encode i) = .ok i :=
  decode_eq_ok.2 ⟨i.wf_iff.1 h, by rw [encode, decodeWord_encodeWord, i.replacePayload_payloadOf]⟩

/-- Settles O2: the payload has the length the word asks for, and the word decodes to the command. -/
theorem decodeOfEncodeIsIdentity : Obligations.DecodeOfEncodeIsIdentity := decode_encode

/-! ### The branches of the decoder, said once (30 R61, R69) -/

/-- The opcode bytes of format N. -/
def opcodesN : List (BitVec 8) := [0x01#8, 0x08#8, 0x12#8, 0x20#8, 0x30#8, 0x31#8, 0x32#8, 0x7F#8]

/-- The opcode bytes of format B. -/
def opcodesB : List (BitVec 8) := [0x10#8, 0x11#8]

/-- The opcode bytes of the formats A, S and P, which take every operand field. -/
def opcodesArg : List (BitVec 8) := [0x02#8, 0x03#8, 0x04#8, 0x05#8, 0x06#8, 0x07#8, 0x33#8]

/-- The opcode bytes of the table (30 R70). -/
def opcodes : List (BitVec 8) :=
  [0x01#8, 0x02#8, 0x03#8, 0x04#8, 0x05#8, 0x06#8, 0x07#8, 0x08#8, 0x10#8, 0x11#8, 0x12#8, 0x20#8, 0x30#8, 0x31#8,
    0x32#8, 0x33#8, 0x40#8, 0x7F#8]

/-- What the decoder makes of a word, by the format of its opcode byte; the encoding of the command it may answer has
the same opcode byte. -/
inductive DecodedAs (w : Word) : Option Instr → Prop where
  | n {o : BitVec 8} {i : Instr} (ho : opcOf w = o) (hmem : o ∈ opcodesN) (hi : encodeWord i = o ++ 0#24) :
      DecodedAs w (decodeN w i)
  | b {o : BitVec 8} {f : Byte → Instr} (ho : opcOf w = o) (hmem : o ∈ opcodesB)
      (hf : ∀ b, encodeWord (f b) = o ++ (0#16 ++ b : Arg)) : DecodedAs w (decodeB w f)
  | r {f : BitVec 4 → Instr} (ho : opcOf w = 0x40#8) (hf : ∀ k, encodeWord (f k) = 0x40#8 ++ (0#20 ++ k : Arg)) :
      DecodedAs w (decodeR w f)
  | arg {o : BitVec 8} {i : Instr} (ho : opcOf w = o) (hmem : o ∈ opcodesArg) (hi : encodeWord i = o ++ argOf w) :
      DecodedAs w (some i)
  | unknown (ho : opcOf w ∉ opcodes) : DecodedAs w none

theorem decodedAs_decodeWord (w : Word) (din : List Byte) : DecodedAs w (decodeWord w din) := by
  unfold decodeWord
  refine iteInduction (fun ho => .n ho (by decide) rfl) fun h01 => ?_
  refine iteInduction (fun ho => .arg ho (by decide) rfl) fun h02 => ?_
  refine iteInduction (fun ho => .arg ho (by decide) rfl) fun h03 => ?_
  refine iteInduction (fun ho => .arg ho (by decide) rfl) fun h04 => ?_
  refine iteInduction (fun ho => .arg ho (by decide) rfl) fun h05 => ?_
  refine iteInduction (fun ho => .arg ho (by decide) rfl) fun h06 => ?_
  refine iteInduction (fun ho => .arg ho (by decide) rfl) fun h07 => ?_
  refine iteInduction (fun ho => .n ho (by decide) rfl) fun h08 => ?_
  refine iteInduction (fun ho => .b ho (by decide) fun _ => rfl) fun h10 => ?_
  refine iteInduction (fun ho => .b ho (by decide) fun _ => rfl) fun h11 => ?_
  refine iteInduction (fun ho => .n ho (by decide) rfl) fun h12 => ?_
  refine iteInduction (fun ho => .n ho (by decide) rfl) fun h20 => ?_
  refine iteInduction (fun ho => .n ho (by decide) rfl) fun h30 => ?_
  refine iteInduction (fun ho => .n ho (by decide) rfl) fun h31 => ?_
  refine iteInduction (fun ho => .n ho (by decide) rfl) fun h32 => ?_
  refine iteInduction (fun ho => .arg ho (by decide) rfl) fun h33 => ?_
  refine iteInduction (fun ho => .r ho fun _ => rfl) fun h40 => ?_
  refine iteInduction (fun ho => .n ho (by decide) rfl) fun h7F => ?_
  exact .unknown (by simp [opcodes, *])

/-! ### A word that decodes is the word of the command it decodes to -/

theorem decodeN_eq_some {w : Word} {i j : Instr} : decodeN w i = some j ↔ argOf w = 0#24 ∧ i = j := by
  simp [decodeN]

theorem decodeB_eq_some {w : Word} {f : Byte → Instr} {j : Instr} :
    decodeB w f = some j ↔ (argOf w).extractLsb' 8 16 = 0#16 ∧ f ((argOf w).extractLsb' 0 8) = j := by
  simp [decodeB]

theorem decodeR_eq_some {w : Word} {f : BitVec 4 → Instr} {j : Instr} :
    decodeR w f = some j ↔ (argOf w).extractLsb' 4 20 = 0#20 ∧ f ((argOf w).extractLsb' 0 4) = j := by
  simp [decodeR]

/-- No bit of the operand field is ignored (30 R62). -/
theorem encodeWord_of_decodeWord {w : Word} {din : List Byte} {i : Instr} (h : decodeWord w din = some i) :
    encodeWord i = w := by
  have hw := decodedAs_decodeWord w din
  generalize decodeWord w din = d at h hw
  cases hw with
  | n ho _ hi =>
    obtain ⟨ha, rfl⟩ := decodeN_eq_some.1 h
    rw [hi, ← ho, ← ha, opcOf_append_argOf]
  | b ho _ hf =>
    obtain ⟨ha, rfl⟩ := decodeB_eq_some.1 h
    rw [hf, ← ho, ← arg_of_high_zero ha, opcOf_append_argOf]
  | r ho hf =>
    obtain ⟨ha, rfl⟩ := decodeR_eq_some.1 h
    rw [hf, ← ho, ← arg_of_high_zero ha, opcOf_append_argOf]
  | arg ho _ hi =>
    cases h
    rw [hi, ← ho, opcOf_append_argOf]
  | unknown => cases h

/-- The payload is in the command too: none is there but in format P. -/
theorem encode_of_decode {c : Command} {i : Instr} (h : decode c = .ok i) : encode i = c := by
  obtain ⟨hlen, hd⟩ := decode_eq_ok.1 h
  have hword : encodeWord i = c.word := encodeWord_of_decodeWord hd
  rw [← hword] at hlen hd
  have hi : i.replacePayload c.payload = i := Option.some.inj ((decodeWord_encodeWord i _).symm.trans hd)
  have hpay : payloadOf i = c.payload := by simpa only [hi] using payloadOf_replacePayload hlen
  rw [encode, hword, hpay]

/-- Settles O3: the pair is the command's encoding, so its payload length makes the command well formed. -/
theorem encodeOfDecodeIsIdentity : Obligations.EncodeOfDecodeIsIdentity := by
  intro c i h
  obtain rfl := encode_of_decode h
  exact ⟨i.wf_iff.2 (decode_eq_ok.1 h).1, rfl⟩

/-! ### The illegal words (30 R70) -/

/-- The list of illegal words in 30 R70. -/
def IllegalWord (w : Word) : Prop :=
  opcOf w ∉ opcodes ∨ (opcOf w ∈ opcodesN ∧ argOf w ≠ 0#24) ∨
  (opcOf w ∈ opcodesB ∧ (argOf w).extractLsb' 8 16 ≠ 0#16) ∨
  (opcOf w = 0x40#8 ∧ (argOf w).extractLsb' 4 20 ≠ 0#20)

theorem opcodesN_class : ∀ o ∈ opcodesN, o ∈ opcodes ∧ o ∉ opcodesB ∧ o ≠ 0x40#8 := by decide

theorem opcodesB_class : ∀ o ∈ opcodesB, o ∈ opcodes ∧ o ∉ opcodesN ∧ o ≠ 0x40#8 := by decide

theorem opcodesArg_class : ∀ o ∈ opcodesArg, o ∈ opcodes ∧ o ∉ opcodesN ∧ o ∉ opcodesB ∧ o ≠ 0x40#8 := by decide

theorem decodeWord_eq_none {w : Word} {din : List Byte} : decodeWord w din = none ↔ IllegalWord w := by
  have hw := decodedAs_decodeWord w din
  generalize decodeWord w din = d at hw
  unfold IllegalWord
  cases hw with
  | n ho hmem =>
    subst ho
    obtain ⟨hin, hB, hR⟩ := opcodesN_class _ hmem
    simp [decodeN, hmem, hin, hB, hR]
  | b ho hmem =>
    subst ho
    obtain ⟨hin, hN, hR⟩ := opcodesB_class _ hmem
    simp [decodeB, hmem, hin, hN, hR]
  | r ho =>
    rw [ho]
    simp [decodeR, opcodes, opcodesN, opcodesB]
  | arg ho hmem =>
    subst ho
    obtain ⟨hin, hN, hB, hR⟩ := opcodesArg_class _ hmem
    simp [hin, hN, hB, hR]
  | unknown ho => simp [ho]

/-- An illegal word asks for no payload (30 R70): no opcode byte of format P is illegal. -/
theorem IllegalWord.payloadLength_eq_zero {w : Word} (h : IllegalWord w) : payloadLength w = 0 := by
  refine if_neg ?_
  rintro (ho | ho) <;> simp [IllegalWord, ho, opcodes, opcodesN, opcodesB] at h

theorem decode_nil_eq_illegalCommand {w : Word} : decode ⟨w, []⟩ = .error .illegalCommand ↔ IllegalWord w := by
  rw [decode_eq_illegalCommand, decodeWord_eq_none]
  exact ⟨And.right, fun h => ⟨h.payloadLength_eq_zero.symm, h⟩⟩

/-! ### The rows of the opcode table (30 R69) -/

theorem OpcodeRow.selects_iff {r : OpcodeRow} {w : Word} : r.selects w = true ↔ w &&& r.mask = r.matchWord :=
  beq_iff_eq

/-- A row that a word selects agrees with it in the opcode byte and in the operand field, as far as its mask goes. -/
theorem OpcodeRow.fields_of_selects {r : OpcodeRow} {w : Word} (h : r.selects w = true) :
    opcOf w &&& opcOf r.mask = opcOf r.matchWord ∧ argOf w &&& argOf r.mask = argOf r.matchWord := by
  rw [← OpcodeRow.selects_iff.1 h]
  exact ⟨BitVec.extractLsb'_and.symm, BitVec.extractLsb'_and.symm⟩

/-- What the rows say of the opcode bytes they match and of the operand field: none of its fixed bits is 1. -/
theorem opcodeTable_fields : ∀ r ∈ opcodeTable, ∀ o : BitVec 8, o &&& opcOf r.mask = opcOf r.matchWord →
    o ∈ opcodes ∧ argOf r.matchWord = 0#24 ∧ (o ∈ opcodesN → argOf r.mask = 0xFFFFFF#24) ∧
      (o ∈ opcodesB → argOf r.mask = 0xFFFF00#24) ∧ (o = 0x40#8 → argOf r.mask = 0xFFFFF0#24) := by decide

/-- Two different rows fix a bit of the opcode byte differently. -/
theorem opcodeTable_disjoint : ∀ r ∈ opcodeTable, ∀ r' ∈ opcodeTable,
    r.matchWord &&& r'.mask = r'.matchWord &&& r.mask → r = r' := by decide

theorem OpcodeRow.eq_of_selects {r r' : OpcodeRow} {w : Word} (hr : r ∈ opcodeTable) (hr' : r' ∈ opcodeTable)
    (h : r.selects w = true) (h' : r'.selects w = true) : r = r' := by
  refine opcodeTable_disjoint r hr r' hr' ?_
  rw [← OpcodeRow.selects_iff.1 h, ← OpcodeRow.selects_iff.1 h', BitVec.and_assoc, BitVec.and_assoc,
    BitVec.and_comm r.mask]

/-- A field under a mask of ones is 0 when the masked whole is. -/
theorem extractLsb'_of_and_eq_zero {a m : Arg} {start len : Nat} (hm : m.extractLsb' start len = BitVec.allOnes len)
    (h : a &&& m = 0#24) : a.extractLsb' start len = 0#len := by
  have := congrArg (BitVec.extractLsb' start len) h
  rwa [BitVec.extractLsb'_and, hm, BitVec.and_allOnes, BitVec.extractLsb'_zero] at this

/-- An illegal word selects no row: its opcode byte matches none, or its operand field does not. -/
theorem IllegalWord.not_selects {w : Word} (hw : IllegalWord w) {r : OpcodeRow} (hr : r ∈ opcodeTable) :
    r.selects w = false := by
  refine Bool.eq_false_iff.2 fun hsel => ?_
  obtain ⟨hopc, harg⟩ := OpcodeRow.fields_of_selects hsel
  obtain ⟨hmem, hzero, hN, hB, hR⟩ := opcodeTable_fields r hr _ hopc
  rw [hzero] at harg
  obtain ho | ⟨ho, ha⟩ | ⟨ho, ha⟩ | ⟨ho, ha⟩ := hw
  · exact ho hmem
  · rw [hN ho] at harg
    exact ha (BitVec.and_allOnes.symm.trans harg)
  · rw [hB ho] at harg
    exact ha (extractLsb'_of_and_eq_zero (by decide) harg)
  · rw [hR ho] at harg
    exact ha (extractLsb'_of_and_eq_zero (by decide) harg)

/-- A word that decodes selects the row of the command it decodes to. -/
theorem row_of_decodeWord {w : Word} {din : List Byte} {i : Instr} (h : decodeWord w din = some i) :
    ∃ r ∈ opcodeTable, r.selects w = true ∧ r.mnemonic = i.mnemonic := by
  obtain ⟨r, hr, hm, hsel⟩ := encodeWord_selects_ownRow i
  exact ⟨r, hr, encodeWord_of_decodeWord h ▸ hsel, hm⟩

/-- The words of no row are the illegal ones. -/
theorem decodeWord_eq_none_iff_no_row {w : Word} {din : List Byte} :
    decodeWord w din = none ↔ ∀ r ∈ opcodeTable, r.selects w = false := by
  refine ⟨fun h r hr => (decodeWord_eq_none.1 h).not_selects hr, fun h => ?_⟩
  by_contra hd
  obtain ⟨i, hi⟩ := Option.ne_none_iff_exists'.1 hd
  obtain ⟨r, hr, hsel, -⟩ := row_of_decodeWord hi
  exact Bool.false_ne_true ((h r hr).symm.trans hsel)

/-- Settles O4: disjoint rows, the row of a decoded command, and no row for an illegal word. -/
theorem opcodeTableDecidesTheCommand : Obligations.OpcodeTableDecidesTheCommand := by
  refine ⟨fun w r hr r' hr' => OpcodeRow.eq_of_selects hr hr', fun c i h => ?_, fun c hlen => ?_⟩
  · exact row_of_decodeWord (decode_eq_ok.1 h).2
  · rw [decode_eq_illegalCommand, decodeWord_eq_none_iff_no_row]
    exact and_iff_right hlen

end Sys2Proof

namespace Sys2Proof.Machine

/-! ### Illegal words raise, and pairs that are no command are refused (30 R70, R72) -/

theorem illegal_run {s : State} (hm : s.mode = .run) (w : Word) :
    s.illegal w = .next (s.raise .illegalCommand w) := State.accept_run hm _

theorem issue_of_illegalCommand {c : Command} (s : State) (h : decode c = .error .illegalCommand) :
    issue c s = s.illegal c.word := by
  simp only [issue, h]

theorem issue_of_payloadMismatch {c : Command} (s : State) (h : decode c = .error .payloadMismatch) :
    issue c s = .refused .payloadMismatch := by
  simp only [issue, h]

theorem step_eq_issue {s : State} {c : Command} {rest : List HostInput} (h : s.inputs = .command c :: rest) :
    step s = issue c { s with inputs := rest } := by
  simp only [step, takeInput, h]

/-- Settles O5, from the branches of the decoder, the answer to an illegal word, and `RDC k` for no register. -/
theorem illegalWordsRaiseIllegalCommand : Obligations.IllegalWordsRaiseIllegalCommand := by
  refine ⟨fun w => decode_nil_eq_illegalCommand, fun s w hm h => ?_, fun s k hm hk => ?_, fun c h => ?_⟩
  · exact ⟨_, (issue_of_illegalCommand s h).trans (illegal_run hm w), s.raise_faultedFrom _ _⟩
  · rw [rdc_word]
    exact ⟨decode_encode (.rdc k) rfl, _, (exec_rdc_illegal hk).trans (illegal_run hm _), s.raise_faultedFrom _ _⟩
  · obtain ⟨hlen, hnone⟩ := decode_eq_illegalCommand.1 h
    exact List.eq_nil_of_length_eq_zero (hlen.trans (decodeWord_eq_none.1 hnone).payloadLength_eq_zero)

/-- Settles O6: the decoder looks at the length before the word, and `issue` refuses before the mode check. -/
theorem payloadLengthIsCheckedFirst : Obligations.PayloadLengthIsCheckedFirst :=
  ⟨fun _ => decode_eq_payloadMismatch, fun _ _ _ hin h => (step_eq_issue hin).trans (issue_of_payloadMismatch _ h)⟩

/-- Settles O1: twelve of the words are encodings of the command named, and two are on the list of illegal words. -/
theorem specWordsDecode : Obligations.SpecWordsDecode :=
  ⟨decode_encode .clr rfl, decode_encode (.ldb 3#24 [0x6B#8, 0x00#8, 0xA5#8]) rfl, decode_encode (.get 23#24) rfl,
    decode_encode (.set 2#24 true) rfl, decode_encode (.set 16777215#24 false) rfl, decode_encode (.whlen 0x6B#8) rfl,
    decode_encode (.wval 0x91#8) rfl, decode_encode .pad rfl, decode_encode .tstrip rfl,
    decode_encode (.xtr 1#24 [0x6B#8]) rfl, decode_encode (.rdc 8#4) rfl, decode_encode .rst rfl,
    decode_nil_eq_illegalCommand.2 (.inl (by decide)),
    decode_nil_eq_illegalCommand.2 (.inr (.inl ⟨by decide, by decide⟩))⟩

end Sys2Proof.Machine

/-! What a response carries, and the places of its fields in the record (O51, O52). -/

namespace Sys2Proof.Machine

/-! ### The responses a command can give (30 R63 to R66) -/

/-- The reasons a command can give for a negative answer (30 R65). -/
def reasonsOf : Instr → List NotFound
  | .hchk => [.tooShort, .headerMismatch]
  | .tfind => [.noOneBit, .badTerminator]
  | .tstrip => [.noOneBit, .badTerminator]
  | .xtr _ _ => [.tooShort, .headerMismatch, .noOneBit, .badTerminator]
  | _ => []

theorem reasonsOf_ne_nil {i : Instr} :
    reasonsOf i ≠ [] ↔ i = .hchk ∨ i = .tfind ∨ i = .tstrip ∨ ∃ n d, i = .xtr n d := by
  cases i <;> simp [reasonsOf]

/-- The commands that can answer with `F = 1` (30 R63). -/
def Flags (i : Instr) : Prop :=
  (∃ j, i = .get j) ∨ i = .pad ∨ i = .hchk ∨ i = .tfind ∨ i = .tstrip ∨ ∃ n d, i = .xtr n d

/-- `Answers i r`: the command `i` can give the response `r`, by the kind of answer. -/
inductive Answers (i : Instr) : Response → Prop where
  | fault (c : Cause) : Answers i (Response.fault c)
  | halted : Answers i Response.halted
  | plain (res : Word) (hi : reasonsOf i = []) : Answers i (Response.ok false res)
  | flagged (res : Word) (hi : Flags i) : Answers i (Response.ok true res)
  | negative (q : NotFound) (hq : q ∈ reasonsOf i) : Answers i (Response.notFound q)
  | exported (dout : List Byte) (hi : i = .exp) : Answers i (Response.bytes false dout)
  | extracted (dout : List Byte) (hi : ∃ n d, i = .xtr n d) : Answers i (Response.bytes true dout)

theorem headerCheck_reason {b : Bits} {q : NotFound} (h : headerCheck b = some q) :
    q = .tooShort ∨ q = .headerMismatch := by
  simpa [h] using headerCheck_cases b

/-- The three ways an extraction ends: with a reason of either check, or with the bytes (43 R131). -/
theorem extract_answers (n : Arg) (din : List Byte) (b : Bits) : Answers (.xtr n din) (extract b).2 := by
  obtain ⟨q, hq, he⟩ | ⟨q, -, hq, he⟩ | ⟨l, -, -, he⟩ := extract_cases b
  · rw [he]
    exact .negative q (by obtain rfl | rfl := headerCheck_reason hq <;> simp [reasonsOf])
  · rw [he]
    exact .negative q (by obtain rfl | rfl := tscan_error hq <;> simp [reasonsOf])
  · rw [he]
    exact .extracted _ ⟨n, din, rfl⟩

/-- In RUN mode, by the case of the command's rule. -/
theorem InRun.answers {i : Instr} {s t : State} (h : InRun i s t) : ∃ r, t.rsp = some r ∧ Answers i r := by
  cases h with
  | ldbOver | getOutside | setOutside | slenOver | expUnaligned | whlenBad | wvalBad | padOver | xtrOver | rdcIllegal =>
    exact ⟨_, rfl, .fault _⟩
  | clr | ldb | set | slen | shl | whlen | wval | wcanon | padAligned => exact ⟨_, rfl, .plain _ rfl⟩
  | get _ j b =>
    cases b with
    | false => exact ⟨_, rfl, .plain _ rfl⟩
    | true => exact ⟨_, rfl, .flagged _ (.inl ⟨j, rfl⟩)⟩
  | pad | hchk | tfind | tstrip => exact ⟨_, rfl, .flagged _ (by simp [Flags])⟩
  | hchkNot _ q hq => exact ⟨_, rfl, .negative q (by simpa [reasonsOf] using headerCheck_reason hq)⟩
  | tfindNot _ q hq | tstripNot _ q hq => exact ⟨_, rfl, .negative q (by simpa [reasonsOf] using tscan_error hq)⟩
  | exp => exact ⟨_, rfl, .exported _ rfl⟩
  | xtr _ n din => exact ⟨_, rfl, extract_answers n din _⟩

theorem exec_answers {i : Instr} {s t : State} {r : Response} (h : exec i s = .next t) (hr : t.rsp = some r) :
    Answers i r := by
  cases exec_cases h with
  | inRun _ hrun =>
    obtain ⟨r', hr', ha⟩ := hrun.answers
    exact Option.some.inj (hr'.symm.trans hr) ▸ ha
  | rdc k v hi _ _ ht =>
    subst hi ht
    cases hr
    exact .plain v rfl
  | rst hi ht =>
    subst hi ht
    cases hr
    exact .plain 0#32 rfl
  | halted _ ht =>
    subst ht
    cases hr
    exact .halted

/-! ### What such a response carries -/

section
variable {i : Instr} {r : Response} (h : Answers i r)
include h

theorem Answers.of_not_ok (hst : r.st ≠ .ok) : r.f = false ∧ r.nx = none ∧ r.res = 0#32 ∧ r.dout = [] := by
  cases h with
  | fault | halted => exact ⟨rfl, rfl, rfl, rfl⟩
  | plain | flagged | negative | exported | extracted => exact absurd rfl hst

theorem Answers.flags (hf : r.f = true) : Flags i := by
  cases h with
  | flagged _ hi => exact hi
  | extracted _ hi => exact .inr (.inr (.inr (.inr (.inr hi))))
  | fault | halted | plain | negative | exported => cases hf

theorem Answers.reason_iff (hst : r.st = .ok) : r.nx ≠ none ↔ reasonsOf i ≠ [] ∧ r.f = false := by
  cases h with
  | fault | halted => cases hst
  | plain _ hi => exact iff_of_false (absurd rfl) fun hn => hn.1 hi
  | exported _ hi => exact iff_of_false (absurd rfl) fun hn => hn.1 (hi ▸ rfl)
  | flagged | extracted => exact iff_of_false (absurd rfl) fun hn => Bool.noConfusion hn.2
  | negative q hq => exact iff_of_true nofun ⟨List.ne_nil_of_mem hq, rfl⟩

theorem Answers.reason_ne {q : NotFound} (hq : q ∉ reasonsOf i) : r.nx ≠ some q := by
  cases h with
  | negative _ hmem => exact fun he => hq (Option.some.inj he ▸ hmem)
  | fault | halted | plain | flagged | exported | extracted => exact nofun

theorem Answers.payload (hd : r.dout ≠ []) : i = .exp ∨ ∃ n d, i = .xtr n d ∧ r.f = true := by
  cases h with
  | exported _ hi => exact .inl hi
  | extracted _ hi =>
    obtain ⟨n, d, rfl⟩ := hi
    exact .inr ⟨n, d, rfl, rfl⟩
  | fault | halted | plain | flagged | negative => exact absurd rfl hd

end

/-- Settles O51, from the kinds of answer; the length of the payload is a part of the invariant. -/
theorem responseShape : Obligations.ResponseShape := by
  intro i s t r h hr
  have ha : Answers i r := exec_answers h hr
  refine ⟨ha.of_not_ok, ha.flags, fun hst => ?_, ?_, ?_, fun hd => ⟨ha.payload hd, fun hs => ?_⟩⟩
  · rw [ha.reason_iff hst, reasonsOf_ne_nil]
  · rintro rfl
    exact ⟨ha.reason_ne (by decide), ha.reason_ne (by decide)⟩
  · rintro (rfl | rfl) <;> exact ⟨ha.reason_ne (by decide), ha.reason_ne (by decide)⟩
  · obtain ⟨-, -, -, hwf⟩ := exec_inv h hs
    obtain ⟨-, -, hlen⟩ := hwf r hr
    exact hlen hd

/-! ### The record (30 R63) -/

/-- The fields of a record put together from a status, a flag, a reason and a result. -/
theorem record_fields (st : BitVec 4) (f : Bool) (nx : BitVec 3) (res : Word) :
    (((st ++ BitVec.ofBool f) ++ nx) ++ res).extractLsb' 36 4 = st ∧
    (((st ++ BitVec.ofBool f) ++ nx) ++ res).getLsbD 35 = f ∧
    (((st ++ BitVec.ofBool f) ++ nx) ++ res).extractLsb' 32 3 = nx ∧
    (((st ++ BitVec.ofBool f) ++ nx) ++ res).extractLsb' 0 32 = res := by
  refine ⟨?_, ?_, ?_, BitVec.extractLsb'_append_eq_right⟩
  · rw [BitVec.extractLsb'_append_eq_of_le (by decide), BitVec.extractLsb'_append_eq_of_le (by decide)]
    exact BitVec.extractLsb'_append_eq_left
  · rw [BitVec.getLsbD_append, BitVec.getLsbD_append, BitVec.getLsbD_append]
    cases f <;> rfl
  · rw [BitVec.extractLsb'_append_eq_of_le (by decide)]
    exact BitVec.extractLsb'_append_eq_right

/-- Settles O52: the fields are those put together, and the codes are as listed. -/
theorem responseRecordFields : Obligations.ResponseRecordFields :=
  ⟨fun r => record_fields r.st.code r.f (nxCode r.nx) r.res, rfl, rfl, fun _ => rfl, rfl, rfl, rfl, rfl, rfl, rfl, rfl,
    rfl, rfl, rfl⟩

end Sys2Proof.Machine

/-! The checks common to every command (O8), and what each command of the Bit-Sequence Engine does to the sequence, bit
by bit (O11 to O17). -/

namespace Sys2Proof.Machine

/-! ### The checks common to every command, in their order (40 R97) -/

/-- A command of the interface that is no legal `RDC` and no `RST` is answered `Halted` in FAULTED mode (60 R156). -/
theorem exec_faulted {i : Instr} {s : State} (hm : s.mode = .faulted) (hwf : i.wf = true) (hrst : i ≠ .rst)
    (hrdc : ∀ k : BitVec 4, k.toNat ≤ 8 → i ≠ .rdc k) : exec i s = .next (s.respond Response.halted) := by
  cases i with
  | clr | get | set | slen | shl | exp | whlen | wval | wcanon | pad | hchk | tfind | tstrip =>
    exact State.accept_faulted hm _
  | ldb | xtr => exact (withPayload_of_length (beq_iff_eq.1 hwf) _).trans (State.accept_faulted hm _)
  | rdc k =>
    have hk : 9 ≤ k.toNat := Nat.lt_of_not_le fun h => hrdc k h rfl
    exact (exec_rdc_illegal hk).trans (State.accept_faulted hm _)
  | rst => exact absurd rfl hrst

theorem issue_of_ok {c : Command} {i : Instr} (s : State) (h : decode c = .ok i) : issue c s = exec i s := by
  simp only [issue, h]

/-- Check (1): in FAULTED mode every pair of the interface but a legal `RDC` and a legal `RST`, of a row or not. -/
theorem issue_faulted {c : Command} {s : State} (hm : s.mode = .faulted)
    (hlen : c.payload.length = payloadLength c.word) (hrst : c.word ≠ encodeWord .rst)
    (hrdc : ∀ k : BitVec 4, k.toNat ≤ 8 → c.word ≠ encodeWord (.rdc k)) :
    issue c s = .next (s.respond Response.halted) := by
  cases hd : decode c with
  | error e =>
    cases e with
    | illegalCommand => exact (issue_of_illegalCommand s hd).trans (State.accept_faulted hm _)
    | payloadMismatch => exact absurd hlen (decode_eq_payloadMismatch.1 hd)
  | ok i =>
    obtain ⟨hwf, rfl⟩ := encodeOfDecodeIsIdentity c i hd
    rw [issue_of_ok s hd]
    exact exec_faulted hm hwf (fun h => hrst (congrArg encodeWord h)) fun k hk h => hrdc k hk (congrArg encodeWord h)

/-- Check (2), a word of no row. -/
theorem issue_no_row {c : Command} {s : State} (hm : s.mode = .run) (hlen : c.payload.length = payloadLength c.word)
    (hrow : ∀ r ∈ opcodeTable, r.selects c.word = false) : issue c s = .next (s.raise .illegalCommand c.word) :=
  (issue_of_illegalCommand s (decode_eq_illegalCommand.2 ⟨hlen, decodeWord_eq_none_iff_no_row.2 hrow⟩)).trans
    (illegal_run hm _)

/-- Check (2), a word of the row `RDC` that names no register. -/
theorem issue_rdc_illegal {c : Command} {s : State} {k : BitVec 4} (hm : s.mode = .run)
    (hlen : c.payload.length = payloadLength c.word) (hk : 9 ≤ k.toNat) (hw : c.word = encodeWord (.rdc k)) :
    issue c s = .next (s.raise .illegalCommand c.word) := by
  have hd : decode c = .ok (.rdc k) := decode_eq_ok.2 ⟨hlen, hw ▸ decodeWord_encodeWord (.rdc k) c.payload⟩
  rw [issue_of_ok s hd, exec_rdc_illegal hk, illegal_run hm, hw]

/-- A command other than `RST` that completes with status OK leaves the mode and the record: of the ways a command
ends, a fault and `Halted` have another status. -/
theorem Ends.control_of_ok {i : Instr} {s t : State} {r : Response} (h : Ends i s t) (hr : t.rsp = some r)
    (hst : r.st = .ok) (hrst : i ≠ .rst) : t.mode = s.mode ∧ t.fcause = s.fcause ∧ t.fcmd = s.fcmd := by
  cases h with
  | reset hi => exact absurd hi hrst
  | read _ _ _ ht | write _ _ _ _ ht => subst ht; exact ⟨rfl, rfl, rfl⟩
  | fault _ _ ht | halt _ ht => subst ht; cases hr; cases hst

/-- An illegal word never completes with status OK. -/
theorem illegal_rsp_ne_ok {s t : State} {w : Word} {r : Response} (h : s.illegal w = .next t) (hr : t.rsp = some r) :
    r.st ≠ .ok := by
  obtain ⟨-, rfl⟩ | ⟨-, rfl⟩ := illegal_cases h <;> cases hr <;> exact nofun

theorem issue_control_of_ok {c : Command} {s t : State} {r : Response} (h : issue c s = .next t) (hr : t.rsp = some r)
    (hst : r.st = .ok) (hrst : c.word ≠ encodeWord .rst) :
    t.mode = s.mode ∧ t.fcause = s.fcause ∧ t.fcmd = s.fcmd := by
  cases hd : decode c with
  | ok i =>
    obtain rfl := encode_of_decode hd
    rw [issue_of_ok s hd] at h
    exact (exec_ends h).control_of_ok hr hst fun hi => hrst (congrArg encodeWord hi)
  | error e =>
    cases e with
    | illegalCommand =>
      rw [issue_of_illegalCommand s hd] at h
      exact absurd hst (illegal_rsp_ne_ok h hr)
    | payloadMismatch =>
      rw [issue_of_payloadMismatch s hd] at h
      cases h

/-- Settles O8: the three checks as `issue` makes them, and the ways a command ends. -/
theorem commonChecksInOrder : Obligations.CommonChecksInOrder := by
  intro s c rest hin hlen
  simp only [step_eq_issue hin, rdc_word]
  refine ⟨fun hm hrdc hrst => issue_faulted hm hlen hrst hrdc,
    fun hm hw => ⟨_, ?_, State.raise_faultedFrom _ _ _⟩, fun i => issue_of_ok _,
    fun t r h hr hst hrst => (issue_control_of_ok h hr hst hrst :)⟩
  obtain hrow | ⟨k, hk, hw⟩ := hw
  · exact issue_no_row hm hlen hrow
  · exact issue_rdc_illegal hm hlen hk hw

/-! ### `CLR` and `LDB` (40 R90, R91) -/

/-- Settles O11: the answer with the empty sequence. -/
theorem clrMakesTheSequenceEmpty : Obligations.ClrMakesTheSequenceEmpty :=
  ⟨decode_encode .clr rfl, fun s hm => ⟨_, exec_clr hm, rfl, rfl, s.answer_sameControl _ _⟩⟩

/-- The load mapping by byte and bit: `BR[8*k + j] = d[k][j]` (20 R43). -/
theorem loadBits_byte_bit {din : List Byte} {k j : Nat} (hk : k < din.length) (hj : j < 8) :
    (loadBits din)[8 * k + j]? = some ((din.getD k 0#8).getLsbD j) := by
  have hbyte : (8 * k + j) / 8 = k := by omega
  have hbit : (8 * k + j) % 8 = j := by omega
  rw [loadBits_getElem?, if_pos (by omega), hbyte, hbit]

/-- Settles O12, from the two cases of `LDB` and the load mapping. -/
theorem ldbLoadsThePayload : Obligations.LdbLoadsThePayload := by
  intro n din hl
  rw [ldb_word n din]
  refine ⟨decode_encode (.ldb n din) (beq_iff_eq.2 hl), fun s hm => ⟨fun hf => ?_, fun hf => ?_⟩⟩
  · refine ⟨_, exec_ldb_fits hl hm hf, ?_, fun k j hk hj => ?_, rfl, s.answer_sameControl _ _⟩
    · rw [State.answer_len, loadBits_length, hl]
    · exact loadBits_byte_bit (hl ▸ hk) hj
  · exact ⟨_, exec_ldb_over hl hm hf, s.raise_faultedFrom _ _⟩

/-! ### `GET` and `SET` (40 R92, R93) -/

theorem resOfBit_eq_ite (b : Bool) : resOfBit b = if b then 1#32 else 0#32 := by cases b <;> rfl

/-- Settles O13, from the two cases of `GET`. -/
theorem getReadsTheBit : Obligations.GetReadsTheBit := by
  intro i
  rw [get_word]
  refine ⟨decode_encode (.get i) rfl, fun s hm => ⟨fun h => ?_, fun h => ?_⟩⟩
  · rw [exec_get_inside hm (List.getElem?_eq_getElem h), ← resOfBit_eq_ite]
    rfl
  · exact ⟨_, exec_get_outside hm h, s.raise_faultedFrom _ _⟩

/-- Settles O14, from the two cases of `SET` and what writing one element of a list does. -/
theorem setWritesOneBit : Obligations.SetWritesOneBit := by
  intro i v
  rw [set_word]
  refine ⟨decode_encode (.set i v) rfl, fun s hm => ⟨fun h => ?_, fun h => ?_⟩⟩
  · exact ⟨_, exec_set_inside hm h, List.length_set, List.getElem?_set_self h,
      fun j hj => List.getElem?_set_ne hj.symm, rfl, s.answer_sameControl _ _⟩
  · exact ⟨_, exec_set_outside hm h, s.raise_faultedFrom _ _⟩

/-! ### `SLEN` and `SHL` (40 R94, R95) -/

theorem setLength_getElem?_old {n j : Nat} {br : Bits} (hn : j < n) (hj : j < br.length) :
    (setLength n br)[j]? = br[j]? := by
  rw [setLength_getElem?, if_pos hn, List.getElem?_eq_getElem hj, List.getD_eq_getElem _ _ hj]

theorem setLength_getElem?_new {n j : Nat} {br : Bits} (hn : j < n) (hj : br.length ≤ j) :
    (setLength n br)[j]? = some false := by
  rw [setLength_getElem?, if_pos hn, List.getD_eq_default _ _ hj]

/-- Settles O15, from the two cases of `SLEN`. -/
theorem slenTruncatesOrExtends : Obligations.SlenTruncatesOrExtends := by
  intro n
  rw [slen_word]
  refine ⟨decode_encode (.slen n) rfl, fun s hm => ⟨fun hf => ?_, fun hf => ?_⟩⟩
  · refine ⟨_, exec_slen_fits hm hf, setLength_length _ _, fun j => setLength_getElem?_old,
      fun j => setLength_getElem?_new, ?_, s.answer_sameControl _ _⟩
    rw [State.answer_rsp, Response.ok, resOf, BitVec.ofNat_toNat]
  · exact ⟨_, exec_slen_over hm hf, s.raise_faultedFrom _ _⟩

theorem shiftOut_getElem?_moved {n j : Nat} {br : Bits} (h : j + n < br.length) :
    (shiftOut n br)[j]? = br[j + n]? := by
  rw [shiftOut_getElem?, if_pos (by omega), if_pos h, List.getElem?_eq_getElem h, List.getD_eq_getElem _ _ h]

theorem shiftOut_getElem?_filled {n j : Nat} {br : Bits} (hj : j < br.length) (h : br.length ≤ j + n) :
    (shiftOut n br)[j]? = some false := by
  rw [shiftOut_getElem?, if_pos hj, if_neg (Nat.not_lt.2 h)]

/-- Settles O16: `SHL` has one case, the shift. -/
theorem shlMovesBitsTowardIndexZero : Obligations.ShlMovesBitsTowardIndexZero := by
  intro n
  rw [shl_word]
  exact ⟨decode_encode (.shl n) rfl, fun s hm => ⟨_, exec_shl hm, shiftOut_length _ _,
    fun j => shiftOut_getElem?_moved, fun j => shiftOut_getElem?_filled, rfl, s.answer_sameControl _ _⟩⟩

/-! ### `EXP` (40 R96) -/

/-- Settles O17, from the two cases of `EXP` and the mapping of bits to bytes (20 R44). -/
theorem expExportsTheBytes : Obligations.ExpExportsTheBytes := by
  refine ⟨decode_encode .exp rfl, fun s hm => ⟨fun h => ?_, fun h => ?_⟩⟩
  · refine ⟨exportBytes s.br, ?_, exportBytes_length _, fun k j => exportBytes_getLsbD _⟩
    rw [exec_exp_aligned hm h, Response.bytes, exportBytes_length]
    rfl
  · exact ⟨_, exec_exp_unaligned hm h, s.raise_faultedFrom _ _⟩

end Sys2Proof.Machine

/-! The Window Header Codec: what a byte of each class decodes to, that nothing but the bits of the code is read, and
the code table (O21 to O26). -/

namespace Sys2Proof.Machine

/-! ### The answers of `WHLEN`, `WVAL` and `WCANON` (41 R110, R112, R114) -/

theorem exec_whlen_answer {s : State} {b : Byte} {l : CodeLength} (hm : s.mode = .run)
    (h : headerLength s.cfg.wbits4 b = some l) :
    exec (.whlen b) s = .next (s.answered .ok false none (BitVec.ofNat 32 l.bits) []) :=
  exec_whlen_some hm h

theorem exec_wval_answer {s : State} {b : Byte} {w : Nat} (hm : s.mode = .run)
    (h : windowSize s.cfg.wbits4 b = some w) :
    exec (.wval b) s = .next (s.answered .ok false none (BitVec.ofNat 32 w) []) :=
  exec_wval_some hm h

/-- A command that answers where a decoder succeeds and raises where it fails: with status OK it has succeeded. -/
theorem codec_ok {α : Type} {o : Option α} {res : α → Word} {i : Instr} {s t : State} {w : Word} {r : Response}
    (hsome : ∀ a, o = some a → exec i s = .next (s.answered .ok false none (res a) []))
    (hnone : o = none → exec i s = .next (s.raise .formatError w))
    (h : exec i s = .next t) (hr : t.rsp = some r) (hst : r.st = .ok) : ∃ a, o = some a ∧ r.res = res a := by
  cases ho : o with
  | none => rw [hnone ho] at h; cases h; cases hr; cases hst
  | some a => rw [hsome a ho] at h; cases h; cases hr; exact ⟨a, rfl, rfl⟩

/-- Such a command faults exactly where the decoder fails. -/
theorem codec_faults_iff {α : Type} {o : Option α} {res : α → Word} {i : Instr} {s : State} {w : Word}
    (hm : s.mode = .run) (hsome : ∀ a, o = some a → exec i s = .next (s.answered .ok false none (res a) []))
    (hnone : o = none → exec i s = .next (s.raise .formatError w)) :
    (∃ t, exec i s = .next t ∧ s.FaultedFrom t .formatError w) ↔ o = none := by
  refine ⟨fun ⟨t, h, hmode, _⟩ => ?_, fun ho => ⟨_, hnone ho, s.raise_faultedFrom _ _⟩⟩
  cases ho : o with
  | none => rfl
  | some a => rw [hsome a ho] at h; cases h; cases hm.symm.trans hmode

theorem exec_whlen_ok {s t : State} {b : Byte} {r : Response} (hm : s.mode = .run) (h : exec (.whlen b) s = .next t)
    (hr : t.rsp = some r) (hst : r.st = .ok) :
    ∃ l, headerLength s.cfg.wbits4 b = some l ∧ r.res = BitVec.ofNat 32 l.bits :=
  codec_ok (res := fun l : CodeLength => BitVec.ofNat 32 l.bits) (fun _ => exec_whlen_answer hm) (exec_whlen_none hm)
    h hr hst

theorem exec_wval_ok {s t : State} {b : Byte} {r : Response} (hm : s.mode = .run) (h : exec (.wval b) s = .next t)
    (hr : t.rsp = some r) (hst : r.st = .ok) :
    ∃ w, windowSize s.cfg.wbits4 b = some w ∧ r.res = BitVec.ofNat 32 w :=
  codec_ok (res := BitVec.ofNat 32) (fun _ => exec_wval_answer hm) (exec_wval_none hm) h hr hst

theorem exec_whlen_faults_iff {s : State} {b : Byte} (hm : s.mode = .run) :
    (∃ t, exec (.whlen b) s = .next t ∧ s.FaultedFrom t .formatError (encodeWord (.whlen b))) ↔
      headerLength s.cfg.wbits4 b = none :=
  codec_faults_iff (res := fun l : CodeLength => BitVec.ofNat 32 l.bits) hm (fun _ => exec_whlen_answer hm)
    (exec_whlen_none hm)

theorem exec_wval_faults_iff {s : State} {b : Byte} (hm : s.mode = .run) :
    (∃ t, exec (.wval b) s = .next t ∧ s.FaultedFrom t .formatError (encodeWord (.wval b))) ↔
      windowSize s.cfg.wbits4 b = none :=
  codec_faults_iff (res := BitVec.ofNat 32) hm (fun _ => exec_wval_answer hm) (exec_wval_none hm)

/-- Settles O26: `WCANON` has one case. -/
theorem wcanonReturnsTheCanonicalCode : Obligations.WcanonReturnsTheCanonicalCode :=
  ⟨decode_encode .wcanon rfl, fun _ hm => exec_wcanon hm⟩

/-! ### The class of a byte is told by its low nibble and `b[6:4]` (41 R110) -/

theorem getLsbD_zero_eq_nibble (b : Byte) : b.getLsbD 0 = (b.extractLsb' 0 4).getLsbD 0 := by
  simp

theorem isFourBit_iff {rule : Wbits4Rule} {b : Byte} :
    isFourBit rule b = true ↔
      (rule = .doc ∧ b.extractLsb' 0 2 = 0b11#2) ∨ (rule = .rfc ∧ b.extractLsb' 1 3 ≠ 0b000#3) := by
  cases rule <;> simp [isFourBit]

/-- The odd low nibbles that are no 4-bit code: 1 under both rules, and under `DOC` also 5, 9 and 13. -/
theorem isFourBit_eq_false_iff {rule : Wbits4Rule} {b : Byte} (h0 : b.getLsbD 0 = true) :
    isFourBit rule b = false ↔ b.extractLsb' 0 4 = 1#4 ∨
      (rule = .doc ∧ (b.extractLsb' 0 4 = 5#4 ∨ b.extractLsb' 0 4 = 9#4 ∨ b.extractLsb' 0 4 = 13#4)) := by
  rw [← Bool.not_eq_true, isFourBit_iff, ← BitVec.extractLsb'_extractLsb'_of_le (show 0 + 2 ≤ 4 by decide),
    ← BitVec.extractLsb'_extractLsb'_of_le (show 1 + 3 ≤ 4 by decide)]
  rw [getLsbD_zero_eq_nibble] at h0
  generalize b.extractLsb' 0 4 = n at h0 ⊢
  cases rule <;> revert n <;> decide

/-- `b[6:0]` is `b[6:4]` above the low nibble. -/
theorem extractLsb'_seven_eq_append_iff {b : Byte} {hi : BitVec 3} {lo : BitVec 4} :
    b.extractLsb' 0 7 = hi ++ lo ↔ b.extractLsb' 4 3 = hi ∧ b.extractLsb' 0 4 = lo := by
  rw [show b.extractLsb' 0 7 = b.extractLsb' 4 3 ++ b.extractLsb' 0 4 from
    (BitVec.extractLsb'_append_extractLsb'_eq_extractLsb' (start₁ := 0) (len₁ := 4) rfl).symm]
  refine ⟨fun h => ?_, fun ⟨hhi, hlo⟩ => by rw [hhi, hlo]⟩
  exact ⟨by simpa only [BitVec.extractLsb'_append_eq_left] using congrArg (BitVec.extractLsb' 4 3) h,
    by simpa only [BitVec.extractLsb'_append_eq_right] using congrArg (BitVec.extractLsb' 0 4) h⟩

theorem reserved_iff {b : Byte} :
    b.extractLsb' 0 7 = wbitsReserved7 ↔ b.extractLsb' 4 3 = 1#3 ∧ b.extractLsb' 0 4 = 1#4 :=
  extractLsb'_seven_eq_append_iff (hi := 1#3) (lo := 1#4)

/-! ### `headerLength` by class (41 R110) -/

theorem headerLength_one {rule : Wbits4Rule} {b : Byte} (h : b.getLsbD 0 = false) :
    headerLength rule b = some .one := if_pos h

theorem headerLength_four {rule : Wbits4Rule} {b : Byte} (h0 : b.getLsbD 0 = true) (h : isFourBit rule b = true) :
    headerLength rule b = some .four := by
  simp [headerLength, h0, h]

theorem headerLength_seven {rule : Wbits4Rule} {b : Byte} (h : b.extractLsb' 0 4 = 1#4)
    (hr : b.extractLsb' 0 7 ≠ wbitsReserved7) : headerLength rule b = some .seven := by
  have h0 : b.getLsbD 0 = true := by rw [getLsbD_zero_eq_nibble, h]; rfl
  have h4 : isFourBit rule b = false := (isFourBit_eq_false_iff h0).2 (.inl h)
  simp [headerLength, h0, h4, h, hr]

theorem headerLength_none {rule : Wbits4Rule} {b : Byte} (h0 : b.getLsbD 0 = true) (h4 : isFourBit rule b = false)
    (h : ¬ (b.extractLsb' 0 4 = 1#4 ∧ b.extractLsb' 0 7 ≠ wbitsReserved7)) : headerLength rule b = none := by
  rw [headerLength, if_neg (by simp [h0]), if_neg (by simp [h4]), if_neg h]

/-- Everything the test sequence can answer, each answer with what the tests saw. -/
theorem headerLength_cases (rule : Wbits4Rule) (b : Byte) :
    (b.getLsbD 0 = false ∧ headerLength rule b = some .one) ∨
    (b.getLsbD 0 = true ∧ isFourBit rule b = true ∧ headerLength rule b = some .four) ∨
    (b.extractLsb' 0 4 = 1#4 ∧ b.extractLsb' 0 7 ≠ wbitsReserved7 ∧ headerLength rule b = some .seven) ∨
    (b.getLsbD 0 = true ∧ isFourBit rule b = false ∧
      ¬ (b.extractLsb' 0 4 = 1#4 ∧ b.extractLsb' 0 7 ≠ wbitsReserved7) ∧ headerLength rule b = none) := by
  cases h0 : b.getLsbD 0 with
  | false => exact .inl ⟨rfl, headerLength_one h0⟩
  | true =>
    cases h4 : isFourBit rule b with
    | true => exact .inr (.inl ⟨rfl, rfl, headerLength_four h0 h4⟩)
    | false =>
      by_cases h7 : b.extractLsb' 0 4 = 1#4 ∧ b.extractLsb' 0 7 ≠ wbitsReserved7
      · exact .inr (.inr (.inl ⟨h7.1, h7.2, headerLength_seven h7.1 h7.2⟩))
      · exact .inr (.inr (.inr ⟨rfl, rfl, h7, headerLength_none h0 h4 h7⟩))

/-- The bytes of no class: the reserved pattern, and under `DOC` the nibbles 5, 9 and 13. -/
theorem headerLength_eq_none_iff {rule : Wbits4Rule} {b : Byte} :
    headerLength rule b = none ↔ b.extractLsb' 0 7 = wbitsReserved7 ∨
      (rule = .doc ∧ (b.extractLsb' 0 4 = 5#4 ∨ b.extractLsb' 0 4 = 9#4 ∨ b.extractLsb' 0 4 = 13#4)) := by
  constructor
  · intro h
    obtain ⟨-, hl⟩ | ⟨-, -, hl⟩ | ⟨-, -, hl⟩ | ⟨h0, h4, h7, -⟩ := headerLength_cases rule b
    · cases h.symm.trans hl
    · cases h.symm.trans hl
    · cases h.symm.trans hl
    · obtain hn | hn := (isFourBit_eq_false_iff h0).1 h4
      · exact .inl (Decidable.not_not.1 fun hr => h7 ⟨hn, hr⟩)
      · exact .inr hn
  · intro h
    have hn := h.imp_left fun hr => (reserved_iff.1 hr).2
    have h0 : b.getLsbD 0 = true := by
      rw [getLsbD_zero_eq_nibble]
      obtain hn | ⟨-, hn | hn | hn⟩ := hn <;> rw [hn] <;> rfl
    refine headerLength_none h0 ((isFourBit_eq_false_iff h0).2 hn) fun ⟨h1, hr⟩ => ?_
    obtain h7 | ⟨-, h5⟩ := h
    · exact hr h7
    · rw [h1] at h5
      revert h5
      decide

/-- Settles O21: `WHLEN` answers by the class of the byte, and faults for the bytes of no class. -/
theorem whlenClassifiesTheFirstByte : Obligations.WhlenClassifiesTheFirstByte := by
  intro b
  rw [whlen_word]
  refine ⟨decode_encode (.whlen b) rfl, fun s hm => ?_⟩
  simp only [← isFourBit_iff, exec_whlen_faults_iff hm]
  exact ⟨fun h0 => exec_whlen_answer hm (headerLength_one h0),
    fun h0 h4 => exec_whlen_answer hm (headerLength_four h0 h4),
    fun hn hr => exec_whlen_answer hm (headerLength_seven hn hr),
    fun h0 h4 h7 => headerLength_none h0 (Bool.eq_false_of_not_eq_true h4) h7, headerLength_eq_none_iff⟩

/-! ### The window size by class (41 R112) -/

theorem windowSize_one {rule : Wbits4Rule} {b : Byte} (h : headerLength rule b = some .one) :
    windowSize rule b = some 16 := by
  rw [windowSize, h]

theorem windowSize_four {rule : Wbits4Rule} {b : Byte} (h : headerLength rule b = some .four) :
    windowSize rule b = some (17 + (b.extractLsb' 1 3).toNat) := by
  rw [windowSize, h]

theorem windowSize_seven {rule : Wbits4Rule} {b : Byte} (h : headerLength rule b = some .seven) :
    windowSize rule b =
      some (if (b.extractLsb' 4 3).toNat = 0 then 17 else 8 + (b.extractLsb' 4 3).toNat) := by
  rw [windowSize, h]
  exact (apply_ite some _ _ _).symm

/-- The window sizes of the classes; the reserved pattern is what keeps 9 out (41 R112, R113). -/
theorem windowSize_cases {rule : Wbits4Rule} {b : Byte} {w : Nat} (h : windowSize rule b = some w) :
    w = 16 ∨ (isFourBit rule b = true ∧ w = 17 + (b.extractLsb' 1 3).toNat) ∨ w = 17 ∨
      (2 ≤ (b.extractLsb' 4 3).toNat ∧ w = 8 + (b.extractLsb' 4 3).toNat) := by
  obtain ⟨-, hl⟩ | ⟨-, h4, hl⟩ | ⟨hn, hr, hl⟩ | ⟨-, -, -, hl⟩ := headerLength_cases rule b
  · rw [windowSize_one hl] at h
    cases h
    exact .inl rfl
  · rw [windowSize_four hl] at h
    cases h
    exact .inr (.inl ⟨h4, rfl⟩)
  · rw [windowSize_seven hl] at h
    cases h
    split
    · exact .inr (.inr (.inl rfl))
    · have h1 : (b.extractLsb' 4 3).toNat ≠ 1 := fun h1 => hr (reserved_iff.2 ⟨BitVec.eq_of_toNat_eq h1, hn⟩)
      exact .inr (.inr (.inr ⟨by omega, rfl⟩))
  · cases ((windowSize_eq_none rule b).2 hl).symm.trans h

theorem windowSize_bounds {rule : Wbits4Rule} {b : Byte} {w : Nat} (h : windowSize rule b = some w) :
    10 ≤ w ∧ w ≤ 24 := by
  have h13 := (b.extractLsb' 1 3).isLt
  have h43 := (b.extractLsb' 4 3).isLt
  obtain rfl | ⟨-, rfl⟩ | rfl | ⟨h2, rfl⟩ := windowSize_cases h <;> omega

theorem ofNat_add_toNat {n : Nat} (k : Nat) (x : BitVec n) :
    BitVec.ofNat 32 (k + x.toNat) = BitVec.ofNat 32 k + x.setWidth 32 := by
  rw [BitVec.ofNat_add, BitVec.ofNat_toNat]

/-- Settles O22: `WVAL` answers by the class of the byte, within the bounds, and faults where `WHLEN` does. -/
theorem wvalDecodesTheWindowSize : Obligations.WvalDecodesTheWindowSize := by
  intro b
  rw [whlen_word, wval_word]
  refine ⟨decode_encode (.wval b) rfl, fun s hm => ?_⟩
  simp only [← isFourBit_iff, exec_whlen_faults_iff hm, exec_wval_faults_iff hm]
  refine ⟨fun h0 => exec_wval_answer hm (windowSize_one (headerLength_one h0)), fun h0 h4 => ?_, fun h7 => ?_,
    fun hn h2 => ?_, windowSize_eq_none _ _, fun t r h hr hst => ?_⟩
  · rw [exec_wval_answer hm (windowSize_four (headerLength_four h0 h4)), ofNat_add_toNat]
  · obtain ⟨hhi, hlo⟩ := (extractLsb'_seven_eq_append_iff (hi := 0#3) (lo := 1#4)).1 h7
    have hr : b.extractLsb' 0 7 ≠ wbitsReserved7 := by rw [h7]; decide
    rw [exec_wval_answer hm (windowSize_seven (headerLength_seven hlo hr)), if_pos (by rw [hhi]; rfl)]
  · have hr : b.extractLsb' 0 7 ≠ wbitsReserved7 := fun h => by
      rw [(reserved_iff.1 h).1] at h2
      exact absurd h2 (by decide)
    rw [exec_wval_answer hm (windowSize_seven (headerLength_seven hn hr)), if_neg (by omega), ofNat_add_toNat]
  · obtain ⟨w, hw, hres⟩ := exec_wval_ok hm h hr hst
    have hb := windowSize_bounds hw
    rw [hres, BitVec.toNat_ofNat, Nat.mod_eq_of_lt (by omega)]
    exact hb

/-! ### Only the bits of the code are read (41 R115 c) -/

theorem getLsbD_eq_of_mod_eq {b b' : Byte} {n i : Nat} (h : b.toNat % 2 ^ n = b'.toNat % 2 ^ n) (hi : i < n) :
    b.getLsbD i = b'.getLsbD i := by
  have hbit := congrArg (fun m => m.testBit i) h
  simp only [Nat.testBit_mod_two_pow, hi, decide_true, Bool.true_and] at hbit
  exact hbit

/-- Two bytes with the same low `n` bits have the same fields there. -/
theorem extractLsb'_eq_of_mod_eq {b b' : Byte} {n : Nat} (h : b.toNat % 2 ^ n = b'.toNat % 2 ^ n) (i k : Nat)
    (hik : i + k ≤ n) : b.extractLsb' i k = b'.extractLsb' i k := by
  apply BitVec.eq_of_getLsbD_eq
  intro j hj
  rw [BitVec.getLsbD_extractLsb', BitVec.getLsbD_extractLsb', getLsbD_eq_of_mod_eq h (by omega)]

theorem isFourBit_of_same_bits {b b' : Byte} (rule : Wbits4Rule) (h : b.toNat % 2 ^ 4 = b'.toNat % 2 ^ 4) :
    isFourBit rule b = isFourBit rule b' := by
  cases rule with
  | doc => rw [isFourBit, isFourBit, extractLsb'_eq_of_mod_eq h 0 2 (by decide)]
  | rfc => rw [isFourBit, isFourBit, extractLsb'_eq_of_mod_eq h 1 3 (by decide)]

/-- The class and the window size are told by the bits of the code alone. -/
theorem code_of_same_bits {rule : Wbits4Rule} {b b' : Byte} {l : CodeLength} (hl : headerLength rule b = some l)
    (h : b.toNat % 2 ^ l.bits = b'.toNat % 2 ^ l.bits) :
    headerLength rule b' = some l ∧ windowSize rule b' = windowSize rule b := by
  obtain ⟨h0, hb⟩ | ⟨h0, h4, hb⟩ | ⟨hn, hr, hb⟩ | ⟨-, -, -, hb⟩ := headerLength_cases rule b <;>
    cases hb.symm.trans hl
  · have hb' : headerLength rule b' = some .one := headerLength_one (getLsbD_eq_of_mod_eq h Nat.one_pos ▸ h0)
    exact ⟨hb', by rw [windowSize_one hb', windowSize_one hb]⟩
  · have hb' : headerLength rule b' = some .four :=
      headerLength_four (getLsbD_eq_of_mod_eq h (Nat.succ_pos 3) ▸ h0) (isFourBit_of_same_bits rule h ▸ h4)
    exact ⟨hb', by rw [windowSize_four hb', windowSize_four hb, extractLsb'_eq_of_mod_eq h 1 3 (by decide)]⟩
  · have hb' : headerLength rule b' = some .seven := headerLength_seven
      (extractLsb'_eq_of_mod_eq h 0 4 (by decide) ▸ hn) (extractLsb'_eq_of_mod_eq h 0 7 (by decide) ▸ hr)
    exact ⟨hb', by rw [windowSize_seven hb', windowSize_seven hb, extractLsb'_eq_of_mod_eq h 4 3 (by decide)]⟩

theorem windowSize_of_headerLength {rule : Wbits4Rule} {b : Byte} {l : CodeLength}
    (h : headerLength rule b = some l) : ∃ w, windowSize rule b = some w := by
  rw [← Option.isSome_iff_exists, ← Option.ne_none_iff_isSome, ne_eq, windowSize_eq_none, h]
  exact nofun

/-- Settles O24: both commands answer by the class and the window size, which the bits of the code tell. -/
theorem windowCodeIsAPrefixCode : Obligations.WindowCodeIsAPrefixCode := by
  intro s t r b b' hm h hr hst hbits
  obtain ⟨l, hl, hres⟩ := exec_whlen_ok hm h hr hst
  have hlen : r.res.toNat = l.bits := by rw [hres]; cases l <;> rfl
  rw [hlen] at hbits
  obtain ⟨hl', hw'⟩ := code_of_same_bits hl hbits
  obtain ⟨w, hw⟩ := windowSize_of_headerLength hl
  exact ⟨by rw [exec_whlen_answer hm hl', exec_whlen_answer hm hl],
    by rw [exec_wval_answer hm (hw'.trans hw), exec_wval_answer hm hw]⟩

/-! ### The code table (30 R74, 41 R115 a, b) -/

/-- A row as far as it binds the decoder: its pattern alone in a byte has its length and its window size. -/
abbrev WindowCode.DecodesUnder (row : WindowCode) (rule : Wbits4Rule) (w : Nat) : Prop :=
  row.pattern < 2 ^ row.len ∧ row.len ≤ 7 ∧
  (headerLength rule (BitVec.ofNat 8 row.pattern)).map CodeLength.bits = some row.len ∧
  windowSize rule (BitVec.ofNat 8 row.pattern) = some w

/-- The patterns of the table, each alone in a byte; the bits above a pattern are for `code_of_same_bits`. -/
theorem windowCodeTable_decodesUnder (rule : Wbits4Rule) : ∀ row ∈ windowCodeTable, ∀ w ∈ row.window,
    (rule = .rfc ∨ (w ≠ 19 ∧ w ≠ 21 ∧ w ≠ 23)) → row.DecodesUnder rule w := by
  cases rule <;> decide

/-- A byte that begins with the pattern of a row decodes as the pattern alone does. -/
theorem WindowCode.DecodesUnder.of_begins {row : WindowCode} {rule : Wbits4Rule} {w : Nat} {b : Byte}
    (h : row.DecodesUnder rule w) (hb : b.toNat % 2 ^ row.len = row.pattern) :
    ∃ l : CodeLength, l.bits = row.len ∧ headerLength rule b = some l ∧ windowSize rule b = some w := by
  obtain ⟨hpat, hlen, hl, hw⟩ := h
  obtain ⟨l, hl, hbits⟩ := Option.map_eq_some_iff.1 hl
  have hpow : 2 ^ row.len ≤ 2 ^ 7 := Nat.pow_le_pow_right (by decide) hlen
  have hsame : (BitVec.ofNat 8 row.pattern).toNat % 2 ^ l.bits = b.toNat % 2 ^ l.bits := by
    rw [hbits, hb, BitVec.toNat_ofNat, Nat.mod_eq_of_lt (show row.pattern < 2 ^ 8 by omega), Nat.mod_eq_of_lt hpat]
  obtain ⟨hl', hw'⟩ := code_of_same_bits hl hsame
  exact ⟨l, hbits, hl', hw'.trans hw⟩

/-- Settles O23: the patterns of the table decode, and so does every byte that begins with one. -/
theorem windowCodeTableDecodes : Obligations.WindowCodeTableDecodes := by
  intro row hrow w hw b s hb hm hrule
  obtain ⟨l, hbits, hl, hw⟩ := (windowCodeTable_decodesUnder s.cfg.wbits4 row hrow w hw hrule).of_begins hb
  exact ⟨hbits ▸ exec_whlen_answer hm hl, exec_wval_answer hm hw⟩

theorem windowCodeTable_covers {w : Nat} (h : 10 ≤ w ∧ w ≤ 24) : ∃ row ∈ windowCodeTable, row.window = some w := by
  obtain ⟨h10, h24⟩ := h
  interval_cases w <;> decide

/-- Under `DOC` a 4-bit code has `b[1] = 1`, so `b[3:1]` is odd and `17 + b[3:1]` even. -/
theorem isFourBit_doc_odd {b : Byte} (h : isFourBit .doc b = true) : (b.extractLsb' 1 3).toNat % 2 = 1 := by
  have h02 : b.extractLsb' 0 2 = 0b11#2 := by simpa [isFourBit] using h
  rw [← BitVec.extractLsb'_extractLsb'_of_le (show 0 + 2 ≤ 4 by decide)] at h02
  rw [← BitVec.extractLsb'_extractLsb'_of_le (show 1 + 3 ≤ 4 by decide)]
  generalize b.extractLsb' 0 4 = n at h02 ⊢
  revert n
  decide

/-- `DOC` leaves the window sizes 19, 21 and 23 without a code (41 R115 b). -/
theorem windowSize_doc {b : Byte} {w : Nat} (h : windowSize .doc b = some w) : w ≠ 19 ∧ w ≠ 21 ∧ w ≠ 23 := by
  have h43 := (b.extractLsb' 4 3).isLt
  obtain rfl | ⟨h4, rfl⟩ | rfl | ⟨h2, rfl⟩ := windowSize_cases h
  · decide
  · have hodd := isFourBit_doc_odd h4
    omega
  · decide
  · omega

/-- Settles O25: what `WVAL` answers is within the bounds and the exception of `DOC`, and the table has a code for
each of the rest. -/
theorem wvalIsOntoTheWindowSizes : Obligations.WvalIsOntoTheWindowSizes := by
  intro s w hm
  constructor
  · rintro ⟨b, hb, hlt⟩
    obtain ⟨v, hv, hres⟩ := exec_wval_ok hm hb rfl rfl
    obtain ⟨h10, h24⟩ := windowSize_bounds hv
    obtain rfl : w = v := by
      have hmod : w % 2 ^ 32 = v % 2 ^ 32 := congrArg BitVec.toNat hres
      omega
    exact ⟨h10, h24, fun hdoc => windowSize_doc (hdoc ▸ hv)⟩
  · rintro ⟨h10, h24, hdoc⟩
    obtain ⟨row, hrow, hw⟩ := windowCodeTable_covers ⟨h10, h24⟩
    have hrule : s.cfg.wbits4 = .rfc ∨ (w ≠ 19 ∧ w ≠ 21 ∧ w ≠ 23) := by
      cases hc : s.cfg.wbits4 with
      | doc => exact .inr (hdoc hc)
      | rfc => exact .inl rfl
    obtain ⟨-, -, -, hsize⟩ := windowCodeTable_decodesUnder s.cfg.wbits4 row hrow w hw hrule
    exact ⟨_, exec_wval_answer hm hsize, by omega⟩

end Sys2Proof.Machine

/-! The Meta-Block Framer: the bits `PAD` appends, when it faults, and what it leaves for `EXP` (O27, O28). -/

namespace Sys2Proof.Machine

/-! ### The bits of the padded sequence (42 R120) -/

theorem isPrefix_padBits (br : Bits) : br <+: padBits br := by
  by_cases h : br.length % 8 = 0
  · rw [padBits_of_aligned h]
  · rw [padBits, if_neg h, List.append_assoc]
    exact List.prefix_append _ _

theorem padBits_getElem?_old {br : Bits} {j : Nat} (hj : j < br.length) : (padBits br)[j]? = br[j]? := by
  rw [List.getElem?_eq_getElem hj]
  exact List.prefix_iff_getElem?.1 (isPrefix_padBits br) j hj

/-- The new bits: `ISLAST = 0`, `MNIBBLES = 11`, and zeros from the reserved bit on. -/
theorem padBits_getElem?_new {br : Bits} {k : Nat} (h : br.length % 8 ≠ 0) (hk : br.length + k < ceil8 (br.length + 6)) :
    (padBits br)[br.length + k]? = some (k == 1 || k == 2) := by
  rw [padBits_getElem? h, if_neg (by omega), if_pos hk]
  simp only [beq_eq_decide, Nat.add_left_cancel_iff]

/-- There is room for the six control bits. -/
theorem padBits_getElem?_control {br : Bits} {k : Nat} (h : br.length % 8 ≠ 0) (hk : k < 6) :
    (padBits br)[br.length + k]? = some (k == 1 || k == 2) :=
  padBits_getElem?_new h (Nat.lt_of_lt_of_le (Nat.add_lt_add_left hk _) (le_ceil8 _))

theorem padBits_getElem?_fill {br : Bits} {j : Nat} (h : br.length % 8 ≠ 0) (hj : br.length + 6 ≤ j)
    (hlt : j < (padBits br).length) : (padBits br)[j]? = some false := by
  obtain ⟨k, rfl⟩ := Nat.exists_eq_add_of_le hj
  rw [padBits_length h, Nat.add_assoc] at hlt
  rw [Nat.add_assoc]
  have h1 : 6 + k ≠ 1 := by omega
  have h2 : 6 + k ≠ 2 := by omega
  rw [padBits_getElem?_new h hlt, beq_false_of_ne h1, beq_false_of_ne h2, Bool.or_false]

/-! ### When `PAD` faults -/

theorem exec_pad_cases {s t : State} (h : exec .pad s = .next t) :
    (s.mode = .run ∧ InRun .pad s t) ∨ (s.mode = .faulted ∧ t.mode = .faulted) := by
  cases exec_cases h with
  | inRun hm hrun => exact .inl ⟨hm, hrun⟩
  | rdc _ _ hi => cases hi
  | rst hi => cases hi
  | halted hm ht => exact .inr ⟨hm, ht ▸ hm⟩

theorem exec_pad_faults_iff {s : State} (hm : s.mode = .run) :
    (∃ t, exec .pad s = .next t ∧ s.FaultedFrom t .capacityError (encodeWord .pad)) ↔
      s.len % 8 ≠ 0 ∧ s.cfg.capBits.toNat < ceil8 (s.len + 6) := by
  refine ⟨fun ⟨t, h, hmode, _⟩ => ?_, fun ⟨h, hf⟩ => ⟨_, exec_pad_over hm h hf, s.raise_faultedFrom _ _⟩⟩
  obtain ⟨-, hrun⟩ | ⟨hm', -⟩ := exec_pad_cases h
  · cases hrun with
    | padAligned | pad => cases hm.symm.trans hmode
    | padOver _ h8 hf => exact ⟨h8, hf⟩
  · cases hm.symm.trans hm'

/-- The capacity is a whole number of bytes, so up to residue 2 the six control bits end within the part byte that is
there; from residue 3 on they take one byte more, which the last byte of the capacity does not leave. -/
theorem cap_lt_ceil8_iff {c n : Nat} (hc : c % 8 = 0) (hc16 : 16 ≤ c) (hn : n ≤ c) :
    (n % 8 ≠ 0 ∧ c < ceil8 (n + 6)) ↔ c - 6 < n ∧ 3 ≤ n % 8 := by
  unfold ceil8
  omega

/-- Settles O27, from the three cases of `PAD` and the bits of the padded sequence. -/
theorem padAppendsTheEmptyMetaBlock : Obligations.PadAppendsTheEmptyMetaBlock := by
  refine ⟨decode_encode .pad rfl, fun s hm => ⟨exec_pad_aligned hm, fun h hf => ?_, fun h hf => ?_, fun hinv => ?_⟩⟩
  · exact ⟨_, exec_pad_fits hm h hf, padBits_length h, fun j => padBits_getElem?_old,
      padBits_getElem?_control (k := 0) h (by decide), padBits_getElem?_control h (by decide),
      padBits_getElem?_control h (by decide), padBits_getElem?_control h (by decide),
      padBits_getElem?_control h (by decide), padBits_getElem?_control h (by decide),
      fun j => padBits_getElem?_fill h, rfl, s.answer_sameControl _ _⟩
  · exact ⟨_, exec_pad_over hm h hf, s.raise_faultedFrom _ _⟩
  · obtain ⟨⟨hcap, hcap16⟩, hlen, -, -⟩ := hinv
    exact (exec_pad_faults_iff hm).trans (cap_lt_ceil8_iff hcap hcap16 hlen)

/-! ### What `PAD` leaves when it does not fault -/

/-- The no-op too leaves `padBits` of the sequence. -/
theorem exec_pad_br {s t : State} (h : exec .pad s = .next t) (ht : t.mode = .run) : t.br = padBits s.br := by
  obtain ⟨-, hrun⟩ | ⟨-, ht'⟩ := exec_pad_cases h
  · cases hrun with
    | padAligned _ h8 => exact (padBits_of_aligned h8).symm
    | pad => rfl
    | padOver => cases ht
  · cases ht.symm.trans ht'

/-- Settles O28: the sequence is a padded one, whose length is aligned for both commands. -/
theorem padAlignsForExport : Obligations.PadAlignsForExport := by
  intro s t h ht
  have hbr := exec_pad_br h ht
  have hlen : t.len % 8 = 0 := by
    rw [State.len, hbr]
    exact padBits_length_mod s.br
  exact ⟨hlen, hbr ▸ isPrefix_padBits s.br, ⟨_, exec_pad_aligned ht hlen, rfl, rfl⟩,
    _, _, exec_exp_aligned ht hlen, rfl, rfl, ht⟩

end Sys2Proof.Machine

/-! The Bare-Block Extractor: the header check, the terminator scan, and the extraction with its outcomes, its laws and
its bounds (O30 to O37). -/

namespace Sys2Proof.Machine

/-! ### `HCHK` (43 R126) -/

/-- With 16 bits there, one that differs is a mismatch. -/
theorem headerCheck_mismatch {br : Bits} (h : 16 ≤ br.length) (hd : ∃ i < 16, br.getD i false ≠ chdr.getLsbD i) :
    headerCheck br = some .headerMismatch := by
  obtain ⟨i, hi, hne⟩ := hd
  have htake : br.take 16 ≠ chdrBits := fun he =>
    hne ((headerCheck_eq_none h).1 (by rw [headerCheck, if_neg (Nat.not_lt.2 h), if_pos he]) i hi)
  rw [headerCheck, if_neg (Nat.not_lt.2 h), if_neg htake]

/-- Settles O30, from the three answers of the header check. -/
theorem hchkComparesSixteenBits : Obligations.HchkComparesSixteenBits :=
  ⟨decode_encode .hchk rfl, fun _ hm =>
    ⟨fun h => exec_hchk_negative hm (headerCheck_tooShort h),
      fun h hb => exec_hchk_match hm ((headerCheck_eq_none h).2 hb),
      fun h hd => exec_hchk_negative hm (headerCheck_mismatch h hd)⟩⟩

/-! ### `TFIND` and `TSTRIP` (43 R127, R128) -/

/-- A cell that is 0 if it is there holds no 1 bit. -/
theorem getElem?_ne_true {br : Bits} {j : Nat} (h : j < br.length → br[j]? = some false) : br[j]? ≠ some true := by
  intro ht
  obtain ⟨hj, -⟩ := List.getElem?_eq_some_iff.1 ht
  cases ht.symm.trans (h hj)

theorem tscan_of_zeros {br : Bits} (h : ∀ j, j < br.length → br[j]? = some false) : tscan br = .error .noOneBit :=
  tscan_noOneBit fun j => getElem?_ne_true (h j)

section
variable {br : Bits} {l : Nat} (h1 : br[l]? = some true) (h0 : ∀ j, l < j → j < br.length → br[j]? = some false)
include h1 h0

theorem tscan_of_lone_last (hb : l = 0 ∨ br[l - 1]? = some false) : tscan br = .error .badTerminator :=
  tscan_badTerminator h1 (fun j hj => getElem?_ne_true (h0 j hj))
    (hb.imp_right fun hf => getElem?_ne_true fun _ => hf)

theorem tscan_of_last_pair (hne : l ≠ 0) (hb : br[l - 1]? = some true) : tscan br = .ok l :=
  tscan_found h1 (fun j hj => getElem?_ne_true (h0 j hj)) hne hb

end

/-- Settles O31, from the three answers of the terminator scan. -/
theorem tfindLocatesTheTerminator : Obligations.TfindLocatesTheTerminator :=
  ⟨decode_encode .tfind rfl, fun _ hm =>
    ⟨fun h => exec_tfind_negative hm (tscan_of_zeros h), fun _ h1 h0 =>
      ⟨fun hb => exec_tfind_negative hm (tscan_of_lone_last h1 h0 hb),
        fun hne hb => exec_tfind_found hm (tscan_of_last_pair h1 h0 hne hb)⟩⟩⟩

theorem stripAt_getElem?_kept {l j : Nat} {br : Bits} (hj : j < l - 1) : (stripAt l br)[j]? = br[j]? := by
  rw [stripAt_getElem?, if_pos hj]

/-- Settles O32, from the same three answers and the bits a strip keeps. -/
theorem tstripDropsTheTerminator : Obligations.TstripDropsTheTerminator := by
  refine ⟨decode_encode .tstrip rfl, fun s hm => ⟨fun h => exec_tstrip_negative hm (tscan_of_zeros h),
    fun l h1 h0 => ⟨fun hb => exec_tstrip_negative hm (tscan_of_lone_last h1 h0 hb), fun hne hb => ?_⟩⟩⟩
  obtain ⟨hl, -⟩ := List.getElem?_eq_some_iff.1 h1
  exact ⟨_, exec_tstrip_found hm (tscan_of_last_pair h1 h0 hne hb), stripAt_length hl,
    fun j => stripAt_getElem?_kept, rfl, s.answer_sameControl _ _⟩

/-! ### The extraction by outcome (43 R131, R132) -/

theorem extract_of_headerCheck {b : Bits} {r : NotFound} (h : headerCheck b = some r) :
    extract b = (b, Response.notFound r) := by
  rw [extract, h]

theorem extract_of_scan_error {b : Bits} {r : NotFound} (h : headerCheck b = none)
    (hs : tscan (shiftOut 16 b) = .error r) : extract b = (shiftOut 16 b, Response.notFound r) := by
  rw [extract, h, hs]

theorem extract_of_scan_ok {b : Bits} {l : Nat} (h : headerCheck b = none) (hs : tscan (shiftOut 16 b) = .ok l) :
    extract b = (padBits (stripAt l (shiftOut 16 b)),
      Response.bytes true (exportBytes (padBits (stripAt l (shiftOut 16 b))))) := by
  rw [extract, h, hs]

theorem padBits_length_eq_ite (br : Bits) :
    (padBits br).length = if br.length % 8 = 0 then br.length else ceil8 (br.length + 6) := by
  split
  next h => rw [padBits_of_aligned h]
  next h => exact padBits_length h

/-- Every bit after the old ones is one of the framer pattern; on an aligned length there is none. -/
theorem padBits_getElem?_pattern {br : Bits} {i : Nat} (hi : br.length ≤ i) (hlt : i < (padBits br).length) :
    (padBits br)[i]? = some (i == br.length + 1 || i == br.length + 2) := by
  by_cases h : br.length % 8 = 0
  · rw [padBits_of_aligned h] at hlt
    exact absurd hlt (Nat.not_lt.2 hi)
  · rw [padBits_length h] at hlt
    rw [padBits_getElem? h, if_neg (Nat.not_lt.2 hi), if_pos hlt]

/-- The exported bytes hold the bits of the sequence (20 R44). -/
theorem getElem?_eq_exportBytes {br : Bits} {k j : Nat} (hk : k < br.length / 8) (hj : j < 8) :
    br[8 * k + j]? = some (((exportBytes br).getD k 0#8).getLsbD j) := by
  have hi : 8 * k + j < br.length := by omega
  rw [exportBytes_getLsbD br hk hj, List.getElem?_eq_getElem hi, List.getD_eq_getElem _ _ hi]

/-- Bit `i` of a payload (20 R43). -/
def payloadBit (din : List Byte) (i : Nat) : Bool := (din.getD (i / 8) 0#8).getLsbD (i % 8)

/-- Bit `i` of a payload after the header shift (43 R131, step 3). -/
def shiftedBit (din : List Byte) (i : Nat) : Bool := if i + 16 < 8 * din.length then payloadBit din (i + 16) else false

theorem loadBits_getElem?_inside {din : List Byte} {i : Nat} (h : i < 8 * din.length) :
    (loadBits din)[i]? = some (payloadBit din i) := by
  rw [loadBits_getElem?, if_pos h, payloadBit]

theorem loadBits_getD_inside {din : List Byte} {i : Nat} (h : i < 8 * din.length) :
    (loadBits din).getD i false = payloadBit din i := by
  rw [List.getD_eq_getElem?_getD, loadBits_getElem?_inside h, Option.getD_some]

theorem shifted_length (din : List Byte) : (shiftOut 16 (loadBits din)).length = 8 * din.length := by
  rw [shiftOut_length, loadBits_length]

theorem shifted_getElem? {din : List Byte} {i : Nat} (h : i < 8 * din.length) :
    (shiftOut 16 (loadBits din))[i]? = some (shiftedBit din i) := by
  rw [shiftOut_getElem?, loadBits_length, if_pos h, shiftedBit]
  split
  next hin => rw [loadBits_getD_inside hin]
  next => rfl

/-- The loaded header is the canonical one exactly when the payload's first 16 bits are. -/
theorem headerCheck_loadBits_eq_none {din : List Byte} (h : 2 ≤ din.length)
    (hd : ∀ i, i < 16 → payloadBit din i = chdr.getLsbD i) : headerCheck (loadBits din) = none :=
  (headerCheck_eq_none (by rw [loadBits_length]; omega)).2 fun i hi => by
    rw [loadBits_getD_inside (by omega), hd i hi]

theorem headerCheck_loadBits_mismatch {din : List Byte} (h : 2 ≤ din.length)
    (hd : ∃ i, i < 16 ∧ payloadBit din i ≠ chdr.getLsbD i) : headerCheck (loadBits din) = some .headerMismatch := by
  obtain ⟨i, hi, hne⟩ := hd
  refine headerCheck_mismatch (by rw [loadBits_length]; omega) ⟨i, hi, ?_⟩
  rwa [loadBits_getD_inside (by omega)]

theorem tscan_shifted_of_zeros {din : List Byte} (h : ∀ i, i < 8 * din.length → shiftedBit din i = false) :
    tscan (shiftOut 16 (loadBits din)) = .error .noOneBit :=
  tscan_of_zeros fun j hj => by
    rw [shifted_length] at hj
    rw [shifted_getElem? hj, h j hj]

section
variable {din : List Byte} {l : Nat} (hl : l < 8 * din.length) (h1 : shiftedBit din l = true)
  (h0 : ∀ i, l < i → i < 8 * din.length → shiftedBit din i = false)
include hl h1 h0

theorem tscan_shifted_of_lone_last (hb : l = 0 ∨ shiftedBit din (l - 1) = false) :
    tscan (shiftOut 16 (loadBits din)) = .error .badTerminator := by
  refine tscan_of_lone_last (l := l) (by rw [shifted_getElem? hl, h1]) (fun j hj hlt => ?_) (hb.imp_right fun hf => ?_)
  · rw [shifted_length] at hlt
    rw [shifted_getElem? hlt, h0 j hj hlt]
  · rw [shifted_getElem? (by omega), hf]

theorem tscan_shifted_of_last_pair (hne : l ≠ 0) (hb : shiftedBit din (l - 1) = true) :
    tscan (shiftOut 16 (loadBits din)) = .ok l := by
  refine tscan_of_last_pair (by rw [shifted_getElem? hl, h1]) (fun j hj hlt => ?_) hne ?_
  · rw [shifted_length] at hlt
    rw [shifted_getElem? hlt, h0 j hj hlt]
  · rw [shifted_getElem? (by omega), hb]

end

/-- What an extraction leaves when it finds the terminator at `l`: the bits before it, the framer pattern, and the
response with the bytes of both (43 R132). -/
theorem bareBlock_outcome {br b : Bits} {l : Nat} (hl : l < br.length) (hb : b = padBits (stripAt l br)) :
    (b.length = if (l - 1) % 8 = 0 then l - 1 else ceil8 (l - 1 + 6)) ∧
    (∀ i, i < l - 1 → b[i]? = br[i]?) ∧
    (∀ i, l - 1 ≤ i → i < b.length → b[i]? = some (i == l - 1 + 1 || i == l - 1 + 2)) ∧
    Response.bytes true (exportBytes b) = ⟨.ok, true, none, BitVec.ofNat 32 (b.length / 8), exportBytes b⟩ := by
  subst hb
  have hstrip : (stripAt l br).length = l - 1 := stripAt_length hl
  refine ⟨?_, fun i hi => ?_, fun i hi hlt => ?_, ?_⟩
  · rw [padBits_length_eq_ite, hstrip]
  · rw [padBits_getElem?_old (hstrip.symm ▸ hi), stripAt_getElem?_kept hi]
  · rw [padBits_getElem?_pattern (hstrip.symm ▸ hi) hlt, hstrip]
  · rw [Response.bytes, exportBytes_length]

/-- Settles O33: one answer of `extract` for each outcome, and the bits of the sequence it leaves. -/
theorem xtrExtractsTheBareBlock : Obligations.XtrExtractsTheBareBlock := by
  intro n din hn
  rw [xtr_word n din]
  refine ⟨decode_encode (.xtr n din) (beq_iff_eq.2 hn), fun s hm => ⟨fun hf => ?_, fun hf => ?_⟩⟩
  · exact ⟨_, exec_xtr_over hn hm hf, s.raise_faultedFrom _ _⟩
  refine ⟨_, exec_xtr_fits hn hm hf, s.answer_sameControl _ _, ?_⟩
  simp only [State.answer_rsp, State.answer_len, State.answer_br, ← hn]
  refine ⟨fun h2 => ?_, fun h2 hd => ?_, fun h2 hd =>
    ⟨fun hx => ?_, fun l hl h1 h0 => ⟨fun hb => ?_, fun hne hb => ?_⟩⟩⟩
  · have hc : headerCheck (loadBits din) = some .tooShort := headerCheck_tooShort (by rw [loadBits_length]; omega)
    rw [extract_of_headerCheck hc]
    exact ⟨rfl, loadBits_length din, fun i => loadBits_getElem?_inside⟩
  · rw [extract_of_headerCheck (headerCheck_loadBits_mismatch h2 hd)]
    exact ⟨rfl, loadBits_length din, fun i => loadBits_getElem?_inside⟩
  · rw [extract_of_scan_error (headerCheck_loadBits_eq_none h2 hd) (tscan_shifted_of_zeros hx)]
    exact ⟨rfl, shifted_length din, fun i hi => (shifted_getElem? hi).trans (congrArg some (hx i hi))⟩
  · rw [extract_of_scan_error (headerCheck_loadBits_eq_none h2 hd) (tscan_shifted_of_lone_last hl h1 h0 hb)]
    exact ⟨rfl, shifted_length din, fun i => shifted_getElem?⟩
  · rw [extract_of_scan_ok (headerCheck_loadBits_eq_none h2 hd) (tscan_shifted_of_last_pair hl h1 h0 hne hb)]
    obtain ⟨hlen, hold, hnew, hrsp⟩ := bareBlock_outcome (hl.trans_eq (shifted_length din).symm) rfl
    exact ⟨hlen, fun i hi => (hold i hi).trans (shifted_getElem? (by omega)), hnew, _, congrArg some hrsp,
      exportBytes_length _, fun k j => getElem?_eq_exportBytes⟩

/-! ### `XTR` is the composition of its steps (43 R130) -/

section
variable {i : Instr} {is : List Instr} {s t : State} {r : Response} (h : exec i s = .next t) (hr : t.rsp = some r)
include h hr

theorem execUntilNegative_continue (hok : r.st = .ok) (hf : i = .hchk ∨ i = .tstrip → r.f = true) :
    execUntilNegative (i :: is) s = execUntilNegative is t := by
  have hgo : ¬ (r.st ≠ .ok ∨ ((i = .hchk ∨ i = .tstrip) ∧ r.f = false)) := by
    rintro (hst | ⟨hi, hff⟩)
    · exact hst hok
    · exact Bool.noConfusion ((hf hi).symm.trans hff)
  simp only [execUntilNegative, h, hr, if_neg hgo]

theorem execUntilNegative_stop (hst : r.st ≠ .ok ∨ ((i = .hchk ∨ i = .tstrip) ∧ r.f = false)) :
    execUntilNegative (i :: is) s = some ⟨false, t⟩ := by
  simp only [execUntilNegative, h, hr, if_pos hst]

end

/-- `PAD` with room for the padded sequence leaves it, in RUN mode, with status OK. -/
theorem exec_pad_ok {s : State} (hm : s.mode = .run) (hf : (padBits s.br).length ≤ s.cfg.capBits.toNat) :
    ∃ t r, exec .pad s = .next t ∧ t.rsp = some r ∧ r.st = .ok ∧ t.mode = .run ∧ t.br = padBits s.br := by
  by_cases h : s.len % 8 = 0
  · exact ⟨_, _, exec_pad_aligned hm h, rfl, rfl, hm, (padBits_of_aligned h).symm⟩
  · exact ⟨_, _, exec_pad_fits hm h (padBits_length h ▸ hf), rfl, rfl, hm, rfl⟩

/-- The last two steps run to the end when the padded sequence fits. -/
theorem execUntilNegative_pad_exp {s : State} (hm : s.mode = .run)
    (hf : (padBits s.br).length ≤ s.cfg.capBits.toNat) :
    ∃ t, execUntilNegative [.pad, .exp] s = some ⟨true, t⟩ ∧ t.br = padBits s.br ∧
      t.rsp = some (Response.bytes false (exportBytes (padBits s.br))) := by
  obtain ⟨t, r, hpad, hr, hok, hmt, hbr⟩ := exec_pad_ok hm hf
  have hexp := exec_exp_aligned hmt (show t.br.length % 8 = 0 from hbr ▸ padBits_length_mod s.br)
  refine ⟨t.respond (Response.bytes false (exportBytes t.br)), ?_, hbr, by rw [State.respond_rsp, hbr]⟩
  rw [execUntilNegative_continue hpad hr hok (by simp), execUntilNegative_continue hexp rfl rfl (by simp)]
  rfl

/-- The response of `XTR` and that of the command the sequence stopped at, or `EXP`'s when it ran to the end. -/
inductive SameAnswer : Bool → Response → Response → Prop where
  | stopped (r : Response) : SameAnswer false r r
  | ended (dout : List Byte) : SameAnswer true (Response.bytes true dout) (Response.bytes false dout)

/-- What R130 says of the two responses. -/
theorem SameAnswer.fields {e : Bool} {rt rq : Response} (h : SameAnswer e rt rq) :
    rt.dout = rq.dout ∧ rt.st = rq.st ∧
    (e = true → rq.st = .ok ∧ rt.f = true ∧ rt.nx = none ∧ rt.res = rq.res) ∧
    (e = false → rt.f = rq.f ∧ rt.nx = rq.nx) := by
  cases h with
  | stopped => exact ⟨rfl, rfl, nofun, fun _ => ⟨rfl, rfl⟩⟩
  | ended => exact ⟨rfl, rfl, fun _ => ⟨rfl, rfl, rfl, rfl⟩, nofun⟩

/-- The header check passed and the header shifted out, the sequence goes on. -/
theorem execUntilNegative_hchk_shl {s : State} {is : List Instr} (hm : s.mode = .run) (hc : headerCheck s.br = none) :
    ∃ t, execUntilNegative (.hchk :: .shl 16#24 :: is) s = execUntilNegative is t ∧ t.br = shiftOut 16 s.br ∧
      t.mode = .run ∧ t.cfg = s.cfg := by
  have hshl := exec_shl (s := s.respond (Response.ok true 0#32)) (n := 16#24) hm
  exact ⟨_, (execUntilNegative_continue (exec_hchk_match hm hc) rfl rfl fun _ => rfl).trans
    (execUntilNegative_continue hshl rfl rfl (by simp)), rfl, hm, rfl⟩

/-- The steps after the load, on a sequence that fits, leave what `extract` leaves (43 R125). -/
theorem execUntilNegative_extract {s : State} (hm : s.mode = .run) (hf : s.len ≤ s.cfg.capBits.toNat) :
    ∃ q rq, execUntilNegative [.hchk, .shl 16#24, .tstrip, .pad, .exp] s = some q ∧ q.final.rsp = some rq ∧
      q.final.br = (extract s.br).1 ∧ SameAnswer q.ended (extract s.br).2 rq := by
  have hfit := (extract_length_le s.br).trans hf
  cases hc : headerCheck s.br with
  | some r =>
    rw [extract_of_headerCheck hc]
    exact ⟨_, _, execUntilNegative_stop (exec_hchk_negative hm hc) rfl (.inr ⟨.inl rfl, rfl⟩), rfl, rfl, .stopped _⟩
  | none =>
    obtain ⟨u, hu, hbr, hmu, hcfg⟩ := execUntilNegative_hchk_shl hm hc
    rw [hu]
    cases hs : tscan u.br with
    | error r =>
      rw [extract_of_scan_error hc (hbr ▸ hs), ← hbr]
      exact ⟨_, _, execUntilNegative_stop (exec_tstrip_negative hmu hs) rfl (.inr ⟨.inr rfl, rfl⟩), rfl, rfl,
        .stopped _⟩
    | ok l =>
      rw [extract_of_scan_ok hc (hbr ▸ hs), ← hbr, ← hcfg] at hfit
      rw [extract_of_scan_ok hc (hbr ▸ hs), ← hbr,
        execUntilNegative_continue (exec_tstrip_found hmu hs) rfl rfl fun _ => rfl]
      obtain ⟨t, hq, hbr, hr⟩ := execUntilNegative_pad_exp (s := u.answer (stripAt l u.br) _) hmu hfit
      exact ⟨_, _, hq, hr, hbr, .ended _⟩

/-- Settles O34: both stop at the load when it faults, and otherwise the steps after it are `extract`. -/
theorem xtrIsTheCompositionOfItsSteps : Obligations.XtrIsTheCompositionOfItsSteps := by
  intro n din s hl hm
  rcases Nat.lt_or_ge s.cfg.capBits.toNat (8 * n.toNat) with hf | hf
  · exact ⟨_, _, _, _, exec_xtr_over hl hm hf,
      execUntilNegative_stop (exec_ldb_over hl hm hf) rfl (.inl nofun), rfl, rfl, rfl,
      (SameAnswer.stopped _).fields⟩
  · have hload : (loadBits din).length ≤ s.cfg.capBits.toNat := by rwa [loadBits_length, hl]
    obtain ⟨q, rq, hq, hr, hbr, hsame⟩ := execUntilNegative_extract
      (s := s.answer (loadBits din) (Response.ok false (resOf (8 * n.toNat)))) hm hload
    refine ⟨_, q, _, rq, exec_xtr_fits hl hm hf, ?_, rfl, hr, hbr.symm, hsame.fields⟩
    rw [execUntilNegative_continue (exec_ldb_fits hl hm hf) rfl rfl (by simp), hq]

/-! ### The extraction of a wrapped byte sequence (43 R134, 44 R145) -/

theorem shiftOut_append (a b : Bits) : shiftOut a.length (a ++ b) = b ++ List.replicate a.length false := by
  rw [shiftOut, List.drop_left, List.length_append, Nat.min_eq_left (Nat.le_add_right _ _)]

theorem loadBits_replicate_zero (k : Nat) : loadBits (List.replicate k 0#8) = List.replicate (8 * k) false := by
  induction k with
  | zero => rfl
  | succ k ih => rw [List.replicate_succ, loadBits_cons, ih, Nat.mul_succ, Nat.add_comm, List.replicate_add]; rfl

/-- The terminator's bits after any sequence and before any zeros are where the scan finds them. -/
theorem tscan_terminated (b : Bits) (k : Nat) :
    tscan (b ++ true :: true :: List.replicate k false) = .ok (b.length + 1) := by
  refine tscan_of_last_pair (by simp) (fun j hj hlt => ?_) (Nat.succ_ne_zero _) (by simp)
  obtain ⟨m, rfl⟩ := Nat.exists_eq_add_of_le hj
  have hm : m < k := by simp at hlt; omega
  rw [List.getElem?_append_right (by omega), show b.length + 1 + 1 + m - b.length = m + 2 by omega]
  simp [hm]

theorem stripAt_append (b c : Bits) : stripAt (b.length + 1) (b ++ c) = b := List.take_left

/-- Header, bytes, terminator, zeros, as bits: the terminator is the last two 1 bits. -/
theorem loadBits_wrapped (body : List Byte) (zeros : Nat) :
    loadBits ([0x6B#8, 0x00#8] ++ body ++ [0x03#8] ++ List.replicate zeros 0#8) =
      chdrBits ++ (loadBits body ++ true :: true :: List.replicate (6 + 8 * zeros) false) := by
  rw [loadBits_append, loadBits_append, loadBits_append, loadBits_canonicalBytes, loadBits_replicate_zero,
    List.replicate_add]
  simp only [List.append_assoc]
  rfl

theorem headerCheck_chdrBits_append (b : Bits) : headerCheck (chdrBits ++ b) = none := by
  have hlen : ¬ (chdrBits ++ b).length < 16 := by simp [chdrBits]
  have htake : (chdrBits ++ b).take 16 = chdrBits := List.take_left' rfl
  rw [headerCheck, if_neg hlen, if_pos htake]

/-- Step 6 is a no-op on whole bytes. -/
theorem extract_wrapped (body : List Byte) (zeros : Nat) :
    extract (loadBits ([0x6B#8, 0x00#8] ++ body ++ [0x03#8] ++ List.replicate zeros 0#8)) =
      (loadBits body, Response.bytes true body) := by
  rw [loadBits_wrapped]
  generalize 6 + 8 * zeros = k
  have hshift : shiftOut 16 (chdrBits ++ (loadBits body ++ true :: true :: List.replicate k false)) =
      loadBits body ++ true :: true :: List.replicate (k + 16) false := by
    rw [show (16 : Nat) = chdrBits.length from rfl, shiftOut_append, List.append_assoc, List.replicate_add]
    rfl
  have hpad : padBits (loadBits body) = loadBits body :=
    padBits_of_aligned (by rw [loadBits_length, Nat.mul_mod_right])
  rw [extract_of_scan_ok (headerCheck_chdrBits_append _) (hshift ▸ tscan_terminated _ _), hshift, stripAt_append, hpad,
    exportBytes_loadBits]

/-- Settles O35, from the extraction of a wrapped byte sequence. -/
theorem xtrReturnsTheWrappedBytes : Obligations.XtrReturnsTheWrappedBytes := by
  intro s n body zeros hm hn hf
  have hxtr := exec_xtr_fits
    (din := [0x6B#8, 0x00#8] ++ body ++ [0x03#8] ++ List.replicate zeros 0#8) (by simp; omega) hm hf
  rw [extract_wrapped] at hxtr
  exact ⟨_, hxtr, rfl, loadBits_length body, fun i => loadBits_getElem?_inside, s.answer_sameControl _ _⟩

/-- Settles O36: an assembled stream is the concatenation of its blocks, wrapped. -/
theorem assembledStreamExtractsToItsBlocks : Obligations.AssembledStreamExtractsToItsBlocks := by
  intro s n blocks hm hn hf
  obtain ⟨t, ht, hr, -⟩ := xtrReturnsTheWrappedBytes s n blocks.flatten 0 hm (by simp [hn, assembleStream]) hf
  rw [List.replicate_zero, List.append_nil] at ht
  exact ⟨t, ht, hr⟩

/-! ### Bounds inside `XTR` (43 R133) -/

/-- The 16 bits of the header and the two of the terminator go, the framer adds at most 13, and the length is a whole
number of bytes: one byte less at the end, and room for the header and the terminator before. -/
theorem bareBlock_bounds {b : Bits} {l : Nat} (h8 : b.length % 8 = 0) (hs : tscan (shiftOut 16 b) = .ok l) :
    24 ≤ b.length ∧ (padBits (stripAt l (shiftOut 16 b))).length + 8 ≤ b.length := by
  obtain ⟨hl1, hl, -⟩ := tscan_ok hs
  have hin : l + 16 < b.length := tscan_shiftOut_ok hs
  have hstrip := stripAt_length hl
  have hle := padBits_length_le (stripAt l (shiftOut 16 b))
  have hmod := padBits_length_mod (stripAt l (shiftOut 16 b))
  omega

/-- Settles O37: `XTR` in RUN mode raises or extracts, and only a terminator found sets the flag. -/
theorem xtrOutputIsBounded : Obligations.XtrOutputIsBounded := by
  intro s t n din r hm h hr
  cases exec_cases h with
  | rdc _ _ hi | rst hi => cases hi
  | halted hm' => cases hm.symm.trans hm'
  | inRun _ hrun =>
    cases hrun with
    | xtrOver _ _ _ hl hf =>
      cases hr
      exact ⟨nofun, fun _ => ⟨rfl, hf, rfl⟩⟩
    | xtr _ _ _ hl hf =>
      obtain rfl : (extract (loadBits din)).2 = r := Option.some.inj hr
      obtain ⟨q, -, he⟩ | ⟨q, -, -, he⟩ | ⟨l, -, hs, he⟩ := extract_cases (loadBits din) <;> rw [he]
      · exact ⟨nofun, fun hst => absurd rfl hst⟩
      · exact ⟨nofun, fun hst => absurd rfl hst⟩
      · refine ⟨fun _ => ?_, fun hst => absurd rfl hst⟩
        have hlen : (loadBits din).length = 8 * n.toNat := by rw [loadBits_length, hl]
        obtain ⟨h24, hle⟩ := bareBlock_bounds (by omega) hs
        have hmod := padBits_length_mod (stripAt l (shiftOut 16 (loadBits din)))
        simp only [Response.bytes, exportBytes_length, State.answer_len]
        omega

end Sys2Proof.Machine

/-! The system commands: `RDC` reads the control registers, and `RST` gives the reset state (O39, O40). -/

namespace Sys2Proof.Machine

/-! ### `RDC` (44 R140) -/

theorem Mode.bit_setWidth_eq_ite (m : Mode) : m.bit.setWidth 32 = if m = .faulted then 1#32 else 0#32 := by
  cases m <;> rfl

/-- A legal read answers the register's value, in either mode, and changes the response only. -/
theorem exec_rdc_answered {s : State} {k : BitVec 4} {v : Word} (h : s.controlReg k = some v) :
    exec (.rdc k) s = .next (s.answered .ok false none v []) := exec_rdc_legal h

/-- Settles O39: the nine registers one by one; no register is there from 9 on, where O5 gives the fault of RUN mode
and the mode check `Halted`. -/
theorem rdcReadsTheControlRegisters : Obligations.RdcReadsTheControlRegisters := by
  refine ⟨fun k => ?_, fun s => ⟨exec_rdc_answered rfl, exec_rdc_answered ?mode, exec_rdc_answered rfl,
    exec_rdc_answered rfl, exec_rdc_answered rfl, exec_rdc_answered rfl, exec_rdc_answered rfl, exec_rdc_answered rfl,
    exec_rdc_answered rfl, fun k hk => ⟨fun hm => ?run, fun hm => ?faulted⟩⟩⟩
  · rw [rdc_word]
    exact decode_encode (.rdc k) rfl
  case mode => exact congrArg some s.mode.bit_setWidth_eq_ite
  case run =>
    obtain ⟨-, -, hillegal, -⟩ := illegalWordsRaiseIllegalCommand
    exact (hillegal s k hm hk).2
  case faulted => exact (exec_rdc_illegal hk).trans (State.accept_faulted hm _)

/-! ### `RST` (44 R141) -/

/-- A format N word with an operand is on the list of illegal words (30 R70). -/
theorem decode_formatN_operand {o : BitVec 8} {x : Arg} (ho : o ∈ opcodesN) (hx : x ≠ 0#24) :
    decode ⟨(o ++ 0#24 : Word) ||| x.setWidth 32, []⟩ = .error .illegalCommand := by
  rw [append_or_setWidth]
  exact decode_nil_eq_illegalCommand.2 (.inr (.inl ⟨by rwa [opcOf_append], by rwa [argOf_append]⟩))

/-- The soft reset writes every field of the reset state but the response and the host's stream. -/
theorem State.softReset_eq (s : State) :
    s.softReset = { State.resetWith s.cfg with rsp := s.rsp, inputs := s.inputs } := rfl

theorem exec_rst (s : State) : exec .rst s = .next (s.softReset.respond (Response.ok false 0#32)) := rfl

/-- Settles O40: the word is that of `RST`, with an operand it is a format N word that no row matches, and the soft
reset gives the reset state. -/
theorem rstGivesTheResetState : Obligations.RstGivesTheResetState := by
  refine ⟨decode_encode .rst rfl, fun x hx => decode_formatN_operand (o := 0x7F#8) (by decide) hx, fun s => ?_⟩
  rw [exec_rst, State.softReset_eq]
  rfl

end Sys2Proof.Machine

/-! FAULTED mode: every way a step from it can end, the two ways out of it, and the frozen bits that no move of the host
can tell apart (O41, O43, O44, O45). -/

namespace Sys2Proof.Machine

/-! ### What a step from FAULTED mode can do (60 R156, R162) -/

/-- `StepFaulted s t`: what a step from FAULTED mode leaves, by the host's move. -/
inductive StepFaulted (s t : State) : Prop where
  | wait (hin : s.inputs = []) (ht : t = s)
  | reset (rest : List HostInput) (hin : s.inputs = .reset :: rest) (ht : t = State.hardReset { s with inputs := rest })
  | rst (rest : List HostInput) (hin : s.inputs = .command (encode .rst) :: rest)
      (ht : t = (State.softReset { s with inputs := rest }).respond (Response.ok false 0#32))
  | rdc (rest : List HostInput) (k : BitVec 4) (v : Word) (hin : s.inputs = .command (encode (.rdc k)) :: rest)
      (hv : s.controlReg k = some v) (ht : t = State.respond { s with inputs := rest } (Response.ok false v))
  | halted (rest : List HostInput) (c : Command) (hin : s.inputs = .command c :: rest)
      (hc : ∀ u : State, u.mode = .faulted → issue c u = .next (u.respond Response.halted))
      (ht : t = State.respond { s with inputs := rest } Response.halted)

/-- A command of FAULTED mode that completes, told from its pair: `RST`, a legal `RDC`, or one that is answered `Halted`
whatever the state. -/
theorem faulted_command_cases {c : Command} (hlen : c.payload.length = payloadLength c.word) :
    decode c = .ok .rst ∨ (∃ k : BitVec 4, k.toNat ≤ 8 ∧ decode c = .ok (.rdc k)) ∨
      ∀ u : State, u.mode = .faulted → issue c u = .next (u.respond Response.halted) := by
  have hdecode {i : Instr} (hi : ∀ din, i.replacePayload din = i) (hw : c.word = encodeWord i) : decode c = .ok i :=
    decode_eq_ok.2 ⟨hlen, by rw [hw, decodeWord_encodeWord, hi]⟩
  by_cases hrst : c.word = encodeWord .rst
  · exact .inl (hdecode (fun _ => rfl) hrst)
  by_cases hrdc : ∃ k : BitVec 4, k.toNat ≤ 8 ∧ c.word = encodeWord (.rdc k)
  · obtain ⟨k, hk, hw⟩ := hrdc
    exact .inr (.inl ⟨k, hk, hdecode (fun _ => rfl) hw⟩)
  · exact .inr (.inr fun u hm => issue_faulted hm hlen hrst fun k hk hw => hrdc ⟨k, hk, hw⟩)

theorem step_of_no_input {s : State} (h : s.inputs = []) : step s = .next s := by
  simp only [step, takeInput, h]

/-- The host's move is a command of the interface. -/
theorem StepFaulted.of_command {s t : State} {c : Command} {rest : List HostInput} (hm : s.mode = .faulted)
    (hin : s.inputs = .command c :: rest) (hlen : c.payload.length = payloadLength c.word) (h : step s = .next t) :
    StepFaulted s t := by
  rw [step_eq_issue hin] at h
  obtain hd | ⟨k, hk, hd⟩ | hc := faulted_command_cases hlen
  · rw [issue_of_ok _ hd, exec_rst] at h
    cases h
    exact .rst rest (encode_of_decode hd ▸ hin) rfl
  · obtain ⟨v, hv⟩ := controlReg_some (s := s) hk
    have hv' : State.controlReg { s with inputs := rest } k = some v := hv
    rw [issue_of_ok _ hd, exec_rdc_legal hv'] at h
    cases h
    exact .rdc rest k v (encode_of_decode hd ▸ hin) hv rfl
  · have hm' : State.mode { s with inputs := rest } = .faulted := hm
    rw [hc _ hm'] at h
    cases h
    exact .halted rest c hin hc rfl

theorem step_faulted {s t : State} (hm : s.mode = .faulted) (h : step s = .next t) : StepFaulted s t := by
  obtain ⟨hin, ht⟩ | ⟨rest, hin, ht⟩ | ⟨c, rest, i, hin, hd, -⟩ | ⟨c, rest, hin, hd, -⟩ := step_cases h
  · exact .wait hin ht
  · exact .reset rest hin ht
  · exact .of_command hm hin (decode_eq_ok.1 hd).1 h
  · exact .of_command hm hin (decode_eq_illegalCommand.1 hd).1 h

/-! ### The frozen bits (60 R161) -/

section
variable {s s' : State} (hs : s.agreeButBits s')
include hs

theorem State.agreeButBits.mode_eq : s'.mode = s.mode := hs.2 ▸ rfl

theorem State.agreeButBits.inputs_eq : s'.inputs = s.inputs := hs.2 ▸ rfl

theorem State.agreeButBits.withInputs (rest : List HostInput) :
    State.agreeButBits { s with inputs := rest } { s' with inputs := rest } :=
  ⟨hs.1, congrArg (fun u : State => { u with inputs := rest }) hs.2⟩

theorem State.agreeButBits.respond (r : Response) : (s.respond r).agreeButBits (s'.respond r) :=
  ⟨hs.1, congrArg (State.respond · r) hs.2⟩

/-- A reset empties the sequence, and nothing else told the two states apart. -/
theorem State.agreeButBits.softReset_eq : s'.softReset = s.softReset :=
  (congrArg State.softReset hs.2).trans rfl

/-- Of the bit register a control register holds the length only (10 R26). -/
theorem State.agreeButBits.controlReg_eq (k : BitVec 4) : s'.controlReg k = s.controlReg k := by
  obtain ⟨hlen, hs'⟩ := hs
  unfold State.controlReg
  rw [hlen, hs']

/-- Whatever the host's move, a FAULTED block with other bits, as many, makes the like step and answers alike: the bits
stay as they are or go with the reset. -/
theorem StepFaulted.agreeButBits {t : State} (hm : s.mode = .faulted) (h : StepFaulted s t) :
    ∃ t', step s' = .next t' ∧ t.agreeButBits t' ∧ t'.rsp = t.rsp := by
  have hmove {l : List HostInput} (hin : s.inputs = l) : s'.inputs = l := hs.inputs_eq.trans hin
  cases h with
  | wait hin ht =>
    subst ht
    exact ⟨s', step_of_no_input (hmove hin), hs, hs.2 ▸ rfl⟩
  | reset rest hin ht =>
    subst ht
    have hstep := step_of_reset (hmove hin)
    rw [State.hardReset, (hs.withInputs rest).softReset_eq] at hstep
    exact ⟨_, hstep, ⟨rfl, rfl⟩, rfl⟩
  | rst rest hin ht =>
    subst ht
    have hstep := step_of_command (hmove hin) (decode_encode .rst rfl)
    rw [exec_rst, (hs.withInputs rest).softReset_eq] at hstep
    exact ⟨_, hstep, ⟨rfl, rfl⟩, rfl⟩
  | rdc rest k v hin hv ht =>
    subst ht
    have hv' := (hs.controlReg_eq k).trans hv
    exact ⟨_, (step_of_command (hmove hin) (decode_encode (.rdc k) rfl)).trans (exec_rdc_legal (v := v) hv'),
      (hs.withInputs rest).respond _, rfl⟩
  | halted rest c hin hc ht =>
    subst ht
    exact ⟨_, (step_eq_issue (hmove hin)).trans (hc _ (hs.mode_eq.trans hm)), (hs.withInputs rest).respond _, rfl⟩

end

/-- Settles O45: the step of the first state says what the second one's is. -/
theorem frozenBitsCannotBeRead : Obligations.FrozenBitsCannotBeRead := by
  intro s s' t t' hm hs h h'
  obtain ⟨u, hu, hagree⟩ := (step_faulted hm h).agreeButBits hs hm
  exact Host.Outcome.next.inj (hu.symm.trans h') ▸ hagree

/-! ### FAULTED mode refuses commands, and keeps its record until a reset (60 R156, R162, R163) -/

/-- Settles O41: `Halted` is the answer of `exec_faulted`. -/
theorem faultedModeRefusesCommands : Obligations.FaultedModeRefusesCommands := by
  intro i s hwf hm hrst hrdc
  exact exec_faulted hm hwf hrst fun k hk hi => absurd (hrdc k hi) (Nat.not_le_of_lt (Nat.lt_succ_of_le hk))

/-- Settles O43: of the steps from FAULTED mode only the two resets change the mode. -/
theorem faultedModeIsLeftOnlyByReset : Obligations.FaultedModeIsLeftOnlyByReset := by
  intro s t hm h hrun
  cases step_faulted hm h with
  | wait _ ht | rdc _ _ _ _ _ ht | halted _ _ _ _ ht =>
    subst ht
    cases hm.symm.trans hrun
  | reset rest hin ht =>
    subst ht
    exact ⟨rest, rfl, rfl, rfl, rfl, .inl hin⟩
  | rst rest hin ht =>
    subst ht
    exact ⟨rest, rfl, rfl, rfl, rfl, .inr hin⟩

/-- Settles O44: the steps that stay in FAULTED mode wait, read a register, or answer `Halted`. -/
theorem recordIsNeverOverwritten : Obligations.RecordIsNeverOverwritten := by
  intro s t hm h hfaulted
  cases step_faulted hm h with
  | wait hin ht =>
    subst ht
    exact ⟨rfl, rfl, rfl, fun c rest hin' => nomatch hin.symm.trans hin'⟩
  | reset _ _ ht | rst _ _ ht =>
    subst ht
    cases hfaulted
  | rdc _ _ _ _ _ ht =>
    subst ht
    exact ⟨rfl, rfl, rfl, fun _ _ _ => ⟨_, rfl, .inl rfl⟩⟩
  | halted _ _ _ _ ht =>
    subst ht
    exact ⟨rfl, rfl, rfl, fun _ _ _ => ⟨_, rfl, .inr rfl⟩⟩

end Sys2Proof.Machine

/-! Faults: the one fault of each command and when it is raised, what taking it records, and that the record stays
true of the frozen state; a negative result is none (O38, O42, O46, O47, O59). -/

namespace Sys2Proof.Machine

/-! ### A negative result (60 R157) -/

/-- Only a negative answer carries a reason. -/
theorem Answers.of_reason {i : Instr} {r : Response} (h : Answers i r) (hnx : r.nx ≠ none) :
    reasonsOf i ≠ [] ∧ ∃ q, r = Response.notFound q := by
  cases h with
  | negative q hq => exact ⟨List.ne_nil_of_mem hq, q, rfl⟩
  | fault | halted | plain | flagged | exported | extracted => exact absurd rfl hnx

/-- With status OK, of the commands only `RST` and `RDC` complete in FAULTED mode too. -/
theorem Ends.run_of_ok {i : Instr} {s t : State} {r : Response} (h : Ends i s t) (hr : t.rsp = some r)
    (hst : r.st = .ok) (hrst : i ≠ .rst) (hrdc : ∀ k, i ≠ .rdc k) : s.mode = .run := by
  cases h with
  | reset hi => exact absurd hi hrst
  | read _ _ hm =>
    obtain hm | ⟨k, hi⟩ := hm
    · exact hm
    · exact absurd hi (hrdc k)
  | write _ _ _ hm | fault _ hm => exact hm
  | halt _ ht => subst ht; cases hr; cases hst

/-- Settles O38: a reason makes the answer a negative one, of a command that has reasons, and such a command is neither
`RST` nor `RDC`. -/
theorem notExtractableIsNotAFault : Obligations.NotExtractableIsNotAFault := by
  intro i s t r h hr hnx
  obtain ⟨hi, q, rfl⟩ := (exec_answers h hr).of_reason hnx
  have hrst : i ≠ .rst := by rintro rfl; exact hi rfl
  have hrdc (k) : i ≠ .rdc k := by rintro rfl; exact hi rfl
  obtain ⟨hmode, hcause, hcmd⟩ := (exec_ends h).control_of_ok hr rfl hrst
  have hm : s.mode = .run := (exec_ends h).run_of_ok hr rfl hrst hrdc
  exact ⟨reasonsOf_ne_nil.1 hi, rfl, rfl, rfl, rfl, hmode.trans hm, hcause, hcmd⟩

/-! ### Taking a fault (60 R160) -/

/-- A command that enters FAULTED mode has raised a fault under its own word. -/
theorem Ends.raise_of_faulted {i : Instr} {s t : State} (h : Ends i s t) (hm : s.mode = .run) (ht : t.mode = .faulted) :
    ∃ c, t = s.raise c (encodeWord i) := by
  cases h with
  | fault c _ heq => exact ⟨c, heq⟩
  | reset _ heq => subst heq; cases ht
  | read _ _ _ heq | write _ _ _ _ heq | halt _ heq => subst heq; cases hm.symm.trans ht

/-- Settles O42: waiting and hardware reset do not enter FAULTED mode, and a command that does, of the table or not, has
raised a fault under the word issued. -/
theorem faultEntryIsPrecise : Obligations.FaultEntryIsPrecise := by
  intro s t hm h ht
  obtain ⟨-, rfl⟩ | ⟨rest, -, rfl⟩ | ⟨c, rest, i, hin, hd, hexec⟩ | ⟨c, rest, hin, -, hill⟩ := step_cases h
  · cases hm.symm.trans ht
  · cases ht
  · obtain rfl := encode_of_decode hd
    obtain ⟨cause, rfl⟩ := (exec_ends hexec).raise_of_faulted hm ht
    exact ⟨_, rest, cause, hin, State.raise_faultedFrom _ _ _, rfl⟩
  · obtain ⟨-, rfl⟩ | ⟨hm', -⟩ := illegal_cases hill
    · exact ⟨c, rest, .illegalCommand, hin, State.raise_faultedFrom _ _ _, rfl⟩
    · cases hm.symm.trans hm'

/-! ### The one fault of each command (60 R159) -/

/-- The fault a command can raise, by its own rule (60 R151 to R155). -/
def faultOf : Instr → Option Cause
  | .whlen _ | .wval _ => some .formatError
  | .exp => some .invalidState
  | .get _ | .set _ _ => some .indexError
  | .ldb _ _ | .slen _ | .pad | .xtr _ _ => some .capacityError
  | .rdc k => if 9 ≤ k.toNat then some .illegalCommand else none
  | .clr | .shl _ | .wcanon | .hchk | .tfind | .tstrip | .rst => none

theorem extract_ok (b : Bits) : (extract b).2.st = .ok := by
  obtain ⟨_, -, he⟩ | ⟨_, -, -, he⟩ | ⟨_, -, -, he⟩ := extract_cases b <;> rw [he] <;> rfl

theorem InRun.faultOf_eq {i : Instr} {s t : State} {r : Response} {c : Cause} (h : InRun i s t) (hr : t.rsp = some r)
    (hst : r.st = .fault c) : faultOf i = some c := by
  cases h with
  | ldbOver | getOutside | setOutside | slenOver | expUnaligned | whlenBad | wvalBad | padOver | xtrOver =>
    cases hr; cases hst; rfl
  | rdcIllegal _ _ hk => cases hr; cases hst; exact if_pos hk
  | clr | ldb | get | set | slen | shl | exp | whlen | wval | wcanon | padAligned | pad | hchk | hchkNot | tfind
  | tfindNot | tstrip | tstripNot => cases hr; cases hst
  | xtr => cases hr; cases (extract_ok _).symm.trans hst

/-- A fault is raised in RUN mode only, and it is the command's own. -/
theorem exec_fault {i : Instr} {s t : State} {r : Response} {c : Cause} (h : exec i s = .next t) (hr : t.rsp = some r)
    (hst : r.st = .fault c) : s.mode = .run ∧ faultOf i = some c := by
  cases exec_cases h with
  | inRun hm hrun => exact ⟨hm, hrun.faultOf_eq hr hst⟩
  | rdc _ _ _ _ _ ht | rst _ ht | halted _ ht => subst ht; cases hr; cases hst

theorem faultOf_eq_formatError {i : Instr} :
    faultOf i = some .formatError ↔ (∃ b, i = .whlen b) ∨ ∃ b, i = .wval b := by
  cases i <;> simp [faultOf]

theorem faultOf_eq_invalidState {i : Instr} : faultOf i = some .invalidState ↔ i = .exp := by
  cases i <;> simp [faultOf]

theorem faultOf_eq_indexError {i : Instr} :
    faultOf i = some .indexError ↔ (∃ j, i = .get j) ∨ ∃ j v, i = .set j v := by
  cases i <;> simp [faultOf]

theorem faultOf_eq_capacityError {i : Instr} :
    faultOf i = some .capacityError ↔
      (∃ n d, i = .ldb n d) ∨ (∃ n, i = .slen n) ∨ i = .pad ∨ ∃ n d, i = .xtr n d := by
  cases i <;> simp [faultOf]

theorem faultOf_eq_illegalCommand {i : Instr} :
    faultOf i = some .illegalCommand ↔ ∃ k : BitVec 4, 9 ≤ k.toNat ∧ i = .rdc k := by
  cases i <;> simp [faultOf]

/-- Settles O46: the cause is the command's own, and the commands with a given cause are those listed. -/
theorem eachCommandRaisesOnlyItsOwnFault : Obligations.EachCommandRaisesOnlyItsOwnFault := by
  intro i s t r c h hr hst
  obtain ⟨hm, hi⟩ := exec_fault h hr hst
  have hc (c' : Cause) : c = c' ↔ faultOf i = some c' := by rw [hi, Option.some.injEq]
  exact ⟨hm, (hc _).trans faultOf_eq_formatError, (hc _).trans faultOf_eq_invalidState,
    (hc _).trans faultOf_eq_indexError, (hc _).trans faultOf_eq_capacityError,
    (hc _).trans faultOf_eq_illegalCommand⟩

/-! ### When CapacityError is raised (60 R154) -/

/-- A command that faults where `p` holds and otherwise completes in RUN mode faults exactly where `p` holds. -/
theorem faults_iff {p : Prop} {i : Instr} {s : State} {c : Cause} {w : Word}
    (hraise : p → exec i s = .next (s.raise c w)) (hok : ¬ p → ∃ t, exec i s = .next t ∧ t.mode = .run) :
    (∃ t, exec i s = .next t ∧ s.FaultedFrom t c w) ↔ p := by
  refine ⟨fun ⟨t, h, hmode, _⟩ => ?_, fun hp => ⟨_, hraise hp, s.raise_faultedFrom c w⟩⟩
  by_contra hp
  obtain ⟨u, hu, hrun⟩ := hok hp
  obtain rfl := Host.Outcome.next.inj (hu.symm.trans h)
  cases hrun.symm.trans hmode

/-- Settles O47, from the two cases of `LDB`, `XTR` and `SLEN` each, and when `PAD` faults. -/
theorem capacityErrorExactly : Obligations.CapacityErrorExactly := by
  refine fun s hm => ⟨fun n din hl => ⟨?ldb, ?xtr⟩, fun n => ?slen, ?pad⟩
  case ldb => exact faults_iff (exec_ldb_over hl hm) fun hf => ⟨_, exec_ldb_fits hl hm (Nat.le_of_not_lt hf), hm⟩
  case xtr => exact faults_iff (exec_xtr_over hl hm) fun hf => ⟨_, exec_xtr_fits hl hm (Nat.le_of_not_lt hf), hm⟩
  case slen => exact faults_iff (exec_slen_over hm) fun hf => ⟨_, exec_slen_fits hm (Nat.le_of_not_lt hf), hm⟩
  case pad => exact (exec_pad_faults_iff hm).trans and_comm

/-! ### The record explains the fault (60 R150 to R155, 10 R30) -/

/-- What a recorded word says of the state, by the cause it is recorded under: the parts of `State.recordExplained`. -/
def State.Explains (s : State) (w : Word) : Cause → Prop
  | .formatError =>
    ∃ b : Byte, headerLength s.cfg.wbits4 b = none ∧ (w = encodeWord (.whlen b) ∨ w = encodeWord (.wval b))
  | .invalidState => w = 0x08000000#32 ∧ s.len % 8 ≠ 0
  | .indexError => (opcOf w = 0x03#8 ∨ opcOf w = 0x04#8 ∨ opcOf w = 0x05#8) ∧ s.len ≤ (argOf w).toNat
  | .capacityError =>
    ((opcOf w = 0x02#8 ∨ opcOf w = 0x33#8) ∧ s.cfg.capBits.toNat < 8 * (argOf w).toNat) ∨
    (opcOf w = 0x06#8 ∧ s.cfg.capBits.toNat < (argOf w).toNat) ∨
    (w = 0x20000000#32 ∧ s.len % 8 ≠ 0 ∧ s.cfg.capBits.toNat < ceil8 (s.len + 6))
  | .illegalCommand =>
    (∀ r ∈ opcodeTable, r.selects w = false) ∨ ∃ k : BitVec 4, 9 ≤ k.toNat ∧ w = encodeWord (.rdc k)

theorem State.recordExplained_iff {s : State} :
    s.recordExplained ↔ ∀ c : Cause, s.fcause = c.code → s.Explains s.fcmd c := by
  constructor
  · rintro ⟨hformat, hstate, hindex, hcap, hill⟩ ⟨⟩
    exacts [hformat, hstate, hindex, hcap, hill]
  · exact fun h => ⟨h .formatError, h .invalidState, h .indexError, h .capacityError, h .illegalCommand⟩

theorem Cause.code_injective : Function.Injective Cause.code := by
  intro c c'
  cases c <;> cases c' <;> decide

theorem State.recordExplained_raise {s : State} {c : Cause} {w : Word} (h : s.Explains w c) :
    (s.raise c w).recordExplained := by
  refine State.recordExplained_iff.2 fun c' hc => ?_
  obtain rfl := Cause.code_injective hc
  exact h

/-- A legal state has no cause recorded in RUN mode (10 R28). -/
theorem State.Inv.fcause_eq_zero {s : State} (hs : s.Inv) (hm : s.mode = .run) : s.fcause = 0#4 := by
  obtain ⟨-, -, ⟨hcause, -, -⟩, -⟩ := hs
  by_contra hne
  cases hm.symm.trans (hcause.2 hne)

/-- In RUN mode, by the case of the command's rule: there is no cause recorded, or the check that failed is what the
record says. -/
theorem InRun.recordExplained {i : Instr} {s t : State} (h : InRun i s t) (hs : s.fcause = 0#4) :
    t.recordExplained := by
  cases h with
  | clr | ldb | get | set | slen | shl | exp | whlen | wval | wcanon | padAligned | pad | hchk | hchkNot | tfind
  | tfindNot | tstrip | tstripNot | xtr => exact State.recordExplained_of_no_cause hs
  | whlenBad _ b h => exact State.recordExplained_raise ⟨b, h, .inl rfl⟩
  | wvalBad _ b h => exact State.recordExplained_raise ⟨b, (windowSize_eq_none _ _).1 h, .inr rfl⟩
  | expUnaligned _ h => exact State.recordExplained_raise ⟨rfl, h⟩
  | getOutside _ j h => exact State.recordExplained_raise (by simpa [State.Explains, encodeWord] using h)
  | setOutside _ j v h => exact State.recordExplained_raise (by cases v <;> simpa [State.Explains] using h)
  | ldbOver _ n din _ h => exact State.recordExplained_raise (.inl (by simpa [encodeWord] using h))
  | xtrOver _ n din _ h => exact State.recordExplained_raise (.inl (by simpa [encodeWord] using h))
  | slenOver _ n h => exact State.recordExplained_raise (.inr (.inl (by simpa [encodeWord] using h)))
  | padOver _ h hf => exact State.recordExplained_raise (.inr (.inr ⟨rfl, h, hf⟩))
  | rdcIllegal _ k hk => exact State.recordExplained_raise (.inr ⟨k, hk, rfl⟩)

/-- A record that is true stays so under a command: in RUN mode a legal state has none yet, and in FAULTED mode the
sequence is frozen until `RST` clears the record. -/
theorem exec_recordExplained {i : Instr} {s t : State} (hs : s.Inv) (he : s.recordExplained) (h : exec i s = .next t) :
    t.recordExplained := by
  cases exec_cases h with
  | inRun hm hrun => exact hrun.recordExplained (hs.fcause_eq_zero hm)
  | rdc _ _ _ _ _ ht | halted _ ht => exact ht ▸ he
  | rst _ ht => exact ht ▸ State.recordExplained_of_no_cause rfl

theorem illegal_recordExplained {c : Command} {s t : State} (he : s.recordExplained)
    (hd : decode c = .error .illegalCommand) (h : s.illegal c.word = .next t) : t.recordExplained := by
  obtain ⟨-, rfl⟩ | ⟨-, rfl⟩ := illegal_cases h
  · have hrow := decodeWord_eq_none_iff_no_row.1 (decode_eq_illegalCommand.1 hd).2
    exact State.recordExplained_raise (.inl hrow)
  · exact he

/-- Settles O59, by the four ways a step answers a next state. -/
theorem stepKeepsTheRecordExplained : Obligations.StepKeepsTheRecordExplained := by
  intro s t hs he h
  obtain ⟨-, rfl⟩ | ⟨rest, -, rfl⟩ | ⟨c, rest, i, -, -, hexec⟩ | ⟨c, rest, -, hd, hill⟩ := step_cases h
  · exact he
  · exact State.recordExplained_of_no_cause rfl
  · exact exec_recordExplained (hs.withInputs rest) he hexec
  · exact illegal_recordExplained (s := { s with inputs := rest }) he hd hill

end Sys2Proof.Machine

/-! Reset, and what a run can rely on: every command completes, a step takes one move of the host, a good run records no
fault; the bits that `SHL` and `SLEN` drop (O9, O10, O19, O20, O48, O55, O56). -/

namespace Sys2Proof.Machine

/-! ### Every command completes with a response (70 R195, 30 R63) -/

theorem State.accept_next (s n : State) : ∃ t, s.accept n = .next t := by
  cases hm : s.mode with
  | run => exact ⟨n, State.accept_run hm n⟩
  | faulted => exact ⟨_, State.accept_faulted hm n⟩

/-- A command of the interface answers a next state in either mode. -/
theorem exec_next_of_wf {i : Instr} (s : State) (hwf : i.wf = true) : ∃ t, exec i s = .next t := by
  cases i with
  | clr | get | set | slen | shl | exp | whlen | wval | wcanon | pad | hchk | tfind | tstrip =>
    exact State.accept_next s _
  | ldb n din | xtr n din =>
    obtain ⟨t, ht⟩ := State.accept_next s _
    exact ⟨t, (withPayload_of_length (beq_iff_eq.1 hwf) _).trans ht⟩
  | rdc k =>
    by_cases hk : 9 ≤ k.toNat
    · rw [exec_rdc_illegal hk]
      exact State.accept_next s _
    · obtain ⟨v, hv⟩ := controlReg_some (s := s) (Nat.le_of_lt_succ (Nat.lt_of_not_le hk))
      exact ⟨_, exec_rdc_legal hv⟩
  | rst => exact ⟨_, exec_rst s⟩

theorem Ends.rsp_eq_some {i : Instr} {s t : State} (h : Ends i s t) : ∃ r, t.rsp = some r := by
  cases h with
  | reset _ ht | read _ _ _ ht | write _ _ _ _ ht | fault _ _ ht | halt _ ht => exact ⟨_, congrArg State.rsp ht⟩

/-- A transaction is refused only for the length of the payload (30 R72). -/
theorem payload_length_ne_of_refused {c : Command} {s : State} {q : Refusal} (h : issue c s = .refused q) :
    c.payload.length ≠ payloadLength c.word := by
  cases hd : decode c with
  | ok i =>
    obtain ⟨hwf, -⟩ := encodeOfDecodeIsIdentity c i hd
    obtain ⟨t, ht⟩ := exec_next_of_wf s hwf
    cases ((issue_of_ok s hd).trans ht).symm.trans h
  | error e =>
    cases e with
    | illegalCommand => exact absurd ((issue_of_illegalCommand s hd).symm.trans h) (State.accept_ne_refused _ _ _)
    | payloadMismatch => exact decode_eq_payloadMismatch.1 hd

/-- Of the host's moves only a command can be refused. -/
theorem step_refused {s : State} {q : Refusal} (h : step s = .refused q) :
    ∃ c rest, s.inputs = .command c :: rest ∧ issue c { s with inputs := rest } = .refused q := by
  cases hin : s.inputs with
  | nil => cases (step_of_no_input hin).symm.trans h
  | cons move rest =>
    cases move with
    | reset => cases (step_of_reset hin).symm.trans h
    | command c => exact ⟨c, rest, rfl, (step_eq_issue hin).symm.trans h⟩

/-- Settles O9: a command of the interface is not refused, and however a command ends it leaves a response. -/
theorem everyCommandCompletes : Obligations.EveryCommandCompletes := by
  refine ⟨fun i s hwf => ?_, fun _ f => (nomatch f), fun s q h => ?_⟩
  · obtain ⟨t, ht⟩ := exec_next_of_wf s hwf
    obtain ⟨r, hr⟩ := (exec_ends ht).rsp_eq_some
    exact ⟨t, r, ht, hr⟩
  · obtain ⟨c, rest, hin, hissue⟩ := step_refused h
    exact ⟨c, rest, hin, payload_length_ne_of_refused hissue⟩

/-! ### A step takes one move of the host (70 R194, R181) -/

theorem illegal_inputs_cfg {s t : State} {w : Word} (h : s.illegal w = .next t) :
    t.inputs = s.inputs ∧ t.cfg = s.cfg := by
  obtain ⟨-, rfl⟩ | ⟨-, rfl⟩ := illegal_cases h <;> exact ⟨rfl, rfl⟩

/-- Settles O10: neither a reset nor a command touches the rest of the host's stream or the parameters. -/
theorem stepConsumesOneInput : Obligations.StepConsumesOneInput := by
  refine ⟨fun s t h => ?_, fun _ => step_of_no_input⟩
  obtain ⟨hin, rfl⟩ | ⟨rest, hin, rfl⟩ | ⟨c, rest, i, hin, -, hexec⟩ | ⟨c, rest, hin, -, hill⟩ := step_cases h
    <;> rw [hin]
  · exact ⟨rfl, rfl⟩
  · exact ⟨rfl, rfl⟩
  · exact ⟨exec_inputs hexec, (exec_cfg hexec :)⟩
  · exact illegal_inputs_cfg hill

/-! ### The bits that `SHL` and `SLEN` drop (70 R185, R193) -/

theorem setLength_of_le {n : Nat} {br : Bits} (h : n ≤ br.length) : setLength n br = br.take n := by
  rw [setLength, Nat.sub_eq_zero_of_le h, List.replicate_zero, List.append_nil]

/-- A shift and a cut by the same number of bits drop the front: the cut takes away the zeros that entered. -/
theorem setLength_shiftOut (n : Nat) (br : Bits) : setLength (br.length - n) (shiftOut n br) = br.drop n := by
  rw [setLength_of_le (by rw [shiftOut_length]; exact Nat.sub_le _ _)]
  exact List.take_left' List.length_drop

/-- Settles O19: `SLEN` cuts what `SHL` shifted. -/
theorem shlThenSlenDropsTheFront : Obligations.ShlThenSlenDropsTheFront := by
  intro s n m hm hcap _ hlen
  have hfits : m.toNat ≤ s.cfg.capBits.toNat := hlen ▸ (Nat.sub_le _ _).trans hcap
  refine ⟨_, _, exec_shl hm, exec_slen_fits (s := s.answer _ _) hm hfits, ?_, rfl, rfl, rfl, rfl, rfl⟩
  rw [State.answer_br, State.answer_br, hlen]
  exact setLength_shiftOut _ _

/-- Settles O20: the lengthening keeps the bits the shortening kept, and fills with zeros beyond them. -/
theorem shorteningSlenLosesBits : Obligations.ShorteningSlenLosesBits := by
  intro s m n hm hmn hcap
  have hkept : (setLength m.toNat s.br).length = m.toNat := setLength_length _ _
  refine ⟨_, _, exec_slen_fits hm (hmn.trans hcap), exec_slen_fits (s := s.answer _ _) hm hcap, setLength_length _ _,
    fun j hj => ?_, fun j hj hjn => ?_⟩
  · rw [State.answer_br, State.answer_br, setLength_getElem?_old (hj.trans_le hmn) (hj.trans_eq hkept.symm),
      setLength_getElem?, if_pos hj]
  · exact setLength_getElem?_new hjn (hkept.trans_le hj)

/-! ### Good runs (70 R196, 60 R161) -/

/-- A transaction that completes is a command's, or the answer to a word of no row. -/
theorem issue_cases {c : Command} {s t : State} (h : issue c s = .next t) :
    (∃ i, exec i s = .next t) ∨ s.illegal c.word = .next t := by
  cases hd : decode c with
  | ok i => exact .inl ⟨i, (issue_of_ok s hd).symm.trans h⟩
  | error e =>
    cases e with
    | illegalCommand => exact .inr ((issue_of_illegalCommand s hd).symm.trans h)
    | payloadMismatch => cases (issue_of_payloadMismatch s hd).symm.trans h

theorem issue_rsp_eq_some {c : Command} {s t : State} (h : issue c s = .next t) : ∃ r, t.rsp = some r := by
  obtain ⟨i, hexec⟩ | hill := issue_cases h
  · exact (exec_ends hexec).rsp_eq_some
  · obtain ⟨-, rfl⟩ | ⟨-, rfl⟩ := illegal_cases hill <;> exact ⟨_, rfl⟩

/-- With status OK a command leaves mode and record alone, but for `RST`, which clears them. -/
theorem exec_noFault_of_ok {i : Instr} {s t : State} {r : Response} (hs : s.noFault) (h : exec i s = .next t)
    (hr : t.rsp = some r) (hst : r.st = .ok) : t.noFault := by
  by_cases hi : i = .rst
  · subst hi
    cases h
    exact ⟨rfl, rfl⟩
  · obtain ⟨hmode, hcause, -⟩ := (exec_ends h).control_of_ok hr hst hi
    obtain ⟨hsmode, hscause⟩ := hs
    exact ⟨hmode.trans hsmode, hcause.trans hscause⟩

theorem issue_noFault_of_ok {c : Command} {s t : State} {r : Response} (hs : s.noFault) (h : issue c s = .next t)
    (hr : t.rsp = some r) (hst : r.st = .ok) : t.noFault := by
  obtain ⟨i, hexec⟩ | hill := issue_cases h
  · exact exec_noFault_of_ok hs hexec hr hst
  · exact absurd hst (illegal_rsp_ne_ok hill hr)

/-- A run of a list with a first command is that command's transaction, its one response, and the run of the rest. -/
theorem runCommands_cons {c : Command} {cs : List Command} {s : State} {r : RunResult}
    (h : runCommands (c :: cs) s = some r) :
    ∃ t x r', issue c s = .next t ∧ t.rsp = some x ∧ runCommands cs t = some r' ∧
      r = ⟨x :: r'.responses, r'.final⟩ := by
  rw [runCommands] at h
  split at h
  · rename_i t hissue
    obtain ⟨x, hx⟩ := issue_rsp_eq_some hissue
    split at h
    · rename_i r' hrun
      rw [hx] at h
      exact ⟨t, x, r', hissue, hx, hrun, (Option.some.inj h).symm⟩
    · cases h
  · cases h
  · cases h

theorem RunResult.good_cons {x : Response} {rs : List Response} {t : State} :
    RunResult.good ⟨x :: rs, t⟩ = true ↔ x.st = .ok ∧ RunResult.good ⟨rs, t⟩ = true := by
  simp [RunResult.good]

/-- Settles O48, by induction on the commands: the state after the first one again has no fault recorded. -/
theorem goodRunEndsWithNoFault : Obligations.GoodRunEndsWithNoFault := by
  intro cs
  induction cs with
  | nil =>
    rintro s _ hs ⟨⟩ -
    exact ⟨hs, rfl⟩
  | cons c cs ih =>
    intro s r hs h hgood
    obtain ⟨t, x, r', hissue, hx, hrun, rfl⟩ := runCommands_cons h
    obtain ⟨hst, hgood'⟩ := RunResult.good_cons.1 hgood
    obtain ⟨hfinal, hlen⟩ := ih t r' (issue_noFault_of_ok hs hissue hx hst) hrun hgood'
    exact ⟨hfinal, congrArg Nat.succ hlen⟩

/-! ### The reset state (70 R180, R182) -/

/-- Settles O55: `State.hardReset_eq` on the step that takes the reset. -/
theorem hardwareResetGivesTheResetState : Obligations.HardwareResetGivesTheResetState :=
  fun _ _ h => (step_of_reset h).trans (congrArg _ (State.hardReset_eq _))

theorem shiftOut_nil (n : Nat) : shiftOut n [] = [] := List.eq_nil_of_length_eq_zero (shiftOut_length n [])

/-- A shift of the empty sequence answers length 0 and changes nothing else. -/
theorem exec_shl_of_empty {s : State} (n : Arg) (hm : s.mode = .run) (hbr : s.br = []) :
    exec (.shl n) s = .next (s.answered .ok false none 0#32 []) := by
  have hbits : shiftOut n.toNat s.br = s.br := by rw [hbr, shiftOut_nil]
  have hlen : s.len = 0 := congrArg List.length hbr
  rw [exec_shl hm, hbits, hlen]
  rfl

/-- `EXP` of the empty sequence returns no bytes and changes nothing else. -/
theorem exec_exp_of_empty {s : State} (hm : s.mode = .run) (hbr : s.br = []) :
    exec .exp s = .next (s.answered .ok false none 0#32 []) := by
  have hlen : s.len = 0 := congrArg List.length hbr
  rw [exec_exp_aligned hm (by rw [hlen]), hbr]
  rfl

/-- Settles O56: the case of each command's rule for `LEN = 0`. -/
theorem commandsOnTheResetState : Obligations.CommandsOnTheResetState := by
  intro c i v
  exact ⟨⟨_, exec_get_outside rfl (Nat.zero_le _), State.raise_faultedFrom _ _ _⟩,
    ⟨_, exec_set_outside rfl (Nat.zero_le _), State.raise_faultedFrom _ _ _⟩,
    exec_exp_of_empty rfl rfl,
    exec_hchk_negative rfl (headerCheck_tooShort (Nat.succ_pos 15)),
    exec_tfind_negative rfl rfl,
    exec_tstrip_negative rfl rfl,
    exec_pad_aligned rfl rfl,
    exec_shl_of_empty i rfl rfl⟩

end Sys2Proof.Machine
